-- ==== Sys2Proof/Word.lean ====
section
/-! DEFINITION. The word type: bytes, the three word sizes of ASS16/W and W-bit words
(spec 00_scope.md R2, R3, R4). -/

namespace Sys2Proof

/-- A byte is 8 bits (R4). -/
abbrev Byte := BitVec 8

/-- The word sizes the spec admits (R3): ASS16/16, ASS16/32, ASS16/64. -/
inductive WordSize where
  | w16
  | w32
  | w64
  deriving DecidableEq, Repr

/-- `WB`, "the number of bytes in a word" (R3). -/
def WordSize.bytes : WordSize → Nat
  | .w16 => 2
  | .w32 => 4
  | .w64 => 8

/-- `W`, the word size in bits (R3); `W = 8 * WB` (R4). -/
abbrev WordSize.bits (w : WordSize) : Nat := 8 * w.bytes

/-- A W-bit value: the content of a register, an address, a data word (R3, R20, R41). -/
abbrev Word (w : WordSize) := BitVec w.bits

/-- `WB` as a word, the step of the Data Transfer modes (48_data_transfer.md R245). -/
def Word.step (w : WordSize) : Word w := BitVec.ofNat w.bits w.bytes

/-- A truth value as a word, 1 or 0 (42_comparison.md R171, 10_state.md R37). -/
def Word.ofBool {w : WordSize} (b : Bool) : Word w := if b then 1#w.bits else 0#w.bits

end Sys2Proof
end

