-- ==== Sys2Proof/Config.lean ====
section
/-! DEFINITION. The configuration of a machine (spec 00_scope.md section 4, the OPEN parameters of
92_eei_decisions.md), the free value that a read of SR 5 gives, and the values of the machine
whose reset state is `State.reset`. -/

namespace Sys2Proof

/-- `BYTE_ORDER`, one order for data and fetch (20_memory.md R62). -/
inductive ByteOrder where
  | little
  | big
  deriving DecidableEq, Repr

/-- `size` consecutive byte addresses from `base`. -/
structure Region where
  base : Nat
  size : Nat
  deriving DecidableEq, Repr

/-- The parameters of 00_scope.md section 4. `Mapped` is given as a list of regions: every finite
set of addresses is one. -/
structure Config where
  /-- `W` (R3). -/
  width : WordSize
  /-- `HAS_MUL`, the hardware multiplier (41_arithmetic.md R161, 10_state.md R37). -/
  hasMul : Bool
  /-- `MODEL_ID`, read from SR 0 (10_state.md R30). -/
  modelId : Word width
  /-- `CORE_FREQ_KIHZ`, read from SR 6 (10_state.md R36). -/
  coreFreqKiHz : Word width
  /-- `BYTE_ORDER` (20_memory.md R62). -/
  byteOrder : ByteOrder
  /-- `RESET_PC`, a multiple of 2 (10_state.md R44). -/
  resetPc : Word width
  /-- The addresses with `Mapped(a)` (20_memory.md R65). -/
  mapped : List Region
  deriving DecidableEq, Repr

/-- `RESET_PC` is even (10_state.md R44). -/
abbrev Config.wf (c : Config) : Prop := c.resetPc.toNat % 2 = 0

/-- The free values of `draw()` (10_state.md R35): what the n-th read of SR 5 gives is the low `W`
bits of `cycleDraw n`. Nothing constrains it. DESIGN CHOICE, safe: log 6. -/
opaque Config.cycleDraw : Nat → BitVec 64

/-- What fills a register whose reset value the spec leaves unspecified, in `State.reset` alone: a
marker that is not 0 (70_reset_and_hazards.md R300) and is a multiple of `WB` for every `W`.
DESIGN CHOICE, unsafe: log 3. -/
def Config.unspecified (w : WordSize) : Word w := BitVec.ofNat w.bits 0xA5A5A5A5A5A5A5A0

/-- The machine of `State.reset`: an ASS16/16 prototype with the multiplier, every address mapped.
DESIGN CHOICE, unsafe: log 2. No statement about every state depends on it. -/
def Config.prototype : Config where
  width := .w16
  hasMul := true
  modelId := 0#16
  coreFreqKiHz := 1024#16
  byteOrder := .little
  resetPc := 0x0100#16
  mapped := [⟨0, 65536⟩]

end Sys2Proof
end

