-- ==== Sys2Proof/Syntax.lean ====
section
/-! DEFINITION. The instructions, one constructor for each row of spec/opcode_table.json. Operand
names are those of 30_encoding.md R93 to R101. Immediates are numbers, as the spec gives them;
`WellFormed.lean` says which fit their fields. -/

namespace Sys2Proof

/-- A register number 0 to 15 (00_scope.md R8, 10_state.md R20). -/
abbrev Reg := Fin 16

/-- R0, the program counter (10_state.md R21). -/
abbrev Reg.pc : Reg := 0

/-- The 2-bit mode of a Data Transfer operand (48_data_transfer.md R246). -/
inductive Mode where
  /-- `0b00` no change. -/
  | keep
  /-- `0b01` autoincrement, after the operation. -/
  | postInc
  /-- `0b10` autodecrement, before the operation. -/
  | preDec
  /-- `0b11` autopostdecrement, after the operation. -/
  | postDec
  deriving DecidableEq, Repr

/-- A Data Transfer operand: its 3-bit specifier and its register (30_encoding.md R101, R110). -/
structure Operand where
  indirect : Bool
  mode : Mode
  reg : Reg
  deriving DecidableEq, Repr

/-- One constructor per row of the opcode table. -/
inductive Instr where
  -- Bitwise, `D` then `S` (40_bitwise.md R121 to R136)
  | bitFalse (d s : Reg)
  | bitNor (d s : Reg)
  | bitNcimpl (d s : Reg)
  | bitNotd (d s : Reg)
  | bitNimpl (d s : Reg)
  | bitNots (d s : Reg)
  | bitXor (d s : Reg)
  | bitNand (d s : Reg)
  | bitAnd (d s : Reg)
  | bitXnor (d s : Reg)
  | bitS (d s : Reg)
  | bitImpl (d s : Reg)
  | bitD (d s : Reg)
  | bitCimpl (d s : Reg)
  | bitOr (d s : Reg)
  | bitTrue (d s : Reg)
  -- Arithmetic, register forms (41_arithmetic.md R141 to R148)
  | add (d s : Reg)
  | sub (d s : Reg)
  | shl (d s : Reg)
  | shr (d s : Reg)
  | asr (d s : Reg)
  | mul (d s : Reg)
  | div (d s : Reg)
  | mod (d s : Reg)
  -- Arithmetic, literal forms, literal 0 to 15 (41_arithmetic.md R149 to R156)
  | addImm (d : Reg) (n : Nat)
  | subImm (d : Reg) (n : Nat)
  | shlImm (d : Reg) (n : Nat)
  | shrImm (d : Reg) (n : Nat)
  | asrImm (d : Reg) (n : Nat)
  | mulImm (d : Reg) (n : Nat)
  | divImm (d : Reg) (n : Nat)
  | modImm (d : Reg) (n : Nat)
  -- Comparison, suffix letters as in the table (42_comparison.md R172 to R187)
  | cmp (d s : Reg)
  | cmpE (d s : Reg)
  | cmpG (d s : Reg)
  | cmpEG (d s : Reg)
  | cmpS (d s : Reg)
  | cmpES (d s : Reg)
  | cmpGS (d s : Reg)
  | cmpEGS (d s : Reg)
  | cmpI (d s : Reg)
  | cmpEI (d s : Reg)
  | cmpGI (d s : Reg)
  | cmpEGI (d s : Reg)
  | cmpSI (d s : Reg)
  | cmpESI (d s : Reg)
  | cmpGSI (d s : Reg)
  | cmpEGSI (d s : Reg)
  /-- Data Transfer (48_data_transfer.md R245). -/
  | xf (dst src : Operand)
  /-- Conditional: comparison register, offset in instructions -128 to 127 (43_conditional.md R200). -/
  | jc (c : Reg) (off : Int)
  /-- Jump and Link: link register, program register (44_jump_and_link.md R205). -/
  | jal (l p : Reg)
  /-- Subword: destination, byte index 0 to 15, byte count field 0 to 7 (45_subword.md R210). -/
  | subword (d : Reg) (bi b : Nat)
  /-- Read System Register `n`, 0 to 255, into `r` (46_system_registers.md R215). -/
  | srr (r : Reg) (n : Nat)
  /-- Write `r` to System Register `n`, 0 to 255 (46_system_registers.md R216). -/
  | srw (n : Nat) (r : Reg)
  /-- Small Immediate: destination, constant 0 to 255 (47_small_immediate.md R240). -/
  | si (d : Reg) (imm : Nat)
  -- Jump and Link words with a reserved bit set (44_jump_and_link.md R206), the bits below it
  | jalReservedBit10 (low : BitVec 10)
  | jalReservedBit9 (low : BitVec 9)
  | jalReservedBit8 (low : BitVec 8)
  -- Unassigned top nibbles (30_encoding.md R103), the bits below
  | unassigned0 (low : BitVec 12)
  | unassignedD (low : BitVec 12)
  | unassignedE (low : BitVec 12)
  | unassignedF (low : BitVec 12)
  deriving DecidableEq, Repr

end Sys2Proof
end

