-- ==== Sys2Proof/WellFormed.lean ====
section
/-! DEFINITION. Which instructions are well formed: every immediate fits the field that holds it
(spec 30_encoding.md R93 to R102). Register numbers, modes and raw bits fit by their types. -/

namespace Sys2Proof

/-- A 4-bit unsigned field (30_encoding.md R102 (c), (e)). -/
def fitsNibble (n : Nat) : Bool := n < 16

/-- A 3-bit unsigned field (30_encoding.md R98). -/
def fitsOctal (n : Nat) : Bool := n < 8

/-- An 8-bit unsigned field (30_encoding.md R102 (b), (d)). -/
def fitsByte (n : Nat) : Bool := n < 256

/-- An 8-bit two's complement field (30_encoding.md R102 (a)). -/
def fitsOffset (k : Int) : Bool := -128 ≤ k && k ≤ 127

/-- Every immediate of the instruction fits its field. -/
def Instr.wf : Instr → Bool
  | .bitFalse _ _ => true
  | .bitNor _ _ => true
  | .bitNcimpl _ _ => true
  | .bitNotd _ _ => true
  | .bitNimpl _ _ => true
  | .bitNots _ _ => true
  | .bitXor _ _ => true
  | .bitNand _ _ => true
  | .bitAnd _ _ => true
  | .bitXnor _ _ => true
  | .bitS _ _ => true
  | .bitImpl _ _ => true
  | .bitD _ _ => true
  | .bitCimpl _ _ => true
  | .bitOr _ _ => true
  | .bitTrue _ _ => true
  | .add _ _ => true
  | .sub _ _ => true
  | .shl _ _ => true
  | .shr _ _ => true
  | .asr _ _ => true
  | .mul _ _ => true
  | .div _ _ => true
  | .mod _ _ => true
  | .addImm _ n => fitsNibble n
  | .subImm _ n => fitsNibble n
  | .shlImm _ n => fitsNibble n
  | .shrImm _ n => fitsNibble n
  | .asrImm _ n => fitsNibble n
  | .mulImm _ n => fitsNibble n
  | .divImm _ n => fitsNibble n
  | .modImm _ n => fitsNibble n
  | .cmp _ _ => true
  | .cmpE _ _ => true
  | .cmpG _ _ => true
  | .cmpEG _ _ => true
  | .cmpS _ _ => true
  | .cmpES _ _ => true
  | .cmpGS _ _ => true
  | .cmpEGS _ _ => true
  | .cmpI _ _ => true
  | .cmpEI _ _ => true
  | .cmpGI _ _ => true
  | .cmpEGI _ _ => true
  | .cmpSI _ _ => true
  | .cmpESI _ _ => true
  | .cmpGSI _ _ => true
  | .cmpEGSI _ _ => true
  | .xf _ _ => true
  | .jc _ off => fitsOffset off
  | .jal _ _ => true
  | .subword _ bi b => fitsNibble bi && fitsOctal b
  | .srr _ n => fitsByte n
  | .srw n _ => fitsByte n
  | .si _ imm => fitsByte imm
  | .jalReservedBit10 _ => true
  | .jalReservedBit9 _ => true
  | .jalReservedBit8 _ => true
  | .unassigned0 _ => true
  | .unassignedD _ => true
  | .unassignedE _ => true
  | .unassignedF _ => true

/-- Well-formedness as a proposition. -/
abbrev WellFormed (i : Instr) : Prop := i.wf = true

end Sys2Proof
end

