-- ==== Sys2Proof/Decode.lean ====
section
/-! DEFINITION. The bytes of a value in memory order, the decoder (total on any bytes, refusing by
name), the encoder, and the opcode table's match and mask of every constructor
(spec 30_encoding.md R90 to R104, 20_memory.md R61, R62). -/

namespace Sys2Proof

/-! ### Bytes and byte order (20_memory.md R62) -/

/-- `byte(k) = v[8k+8 : 8k]` (R62). -/
def byteOf {n : Nat} (v : BitVec n) (k : Nat) : Byte := v.extractLsb' (8 * k) 8

/-- The `n` bytes of `v` from the lowest address up (R62): `byte(k)` at `a + k` if little,
`byte(n - 1 - k)` if big. -/
def bytesOf (o : ByteOrder) (n : Nat) (v : BitVec (8 * n)) : List Byte :=
  match o with
  | .little => (List.range n).map fun k => byteOf v k
  | .big => (List.range n).map fun k => byteOf v (n - 1 - k)

/-- The number whose bytes, least significant first, are the list. -/
def ofBytesLE : List Byte → Nat
  | [] => 0
  | b :: bs => b.toNat + 256 * ofBytesLE bs

/-- The number whose bytes, from the lowest address up, are the list (R62). -/
def assemble (o : ByteOrder) (bs : List Byte) : Nat :=
  match o with
  | .little => ofBytesLE bs
  | .big => ofBytesLE bs.reverse

/-! ### Fields of the instruction word -/

/-- `iw[a:b]`, bits `b` to `a - 1` (00_scope.md R7). -/
def field (iw : BitVec 16) (a b : Nat) : BitVec (a - b) := iw.extractLsb' b (a - b)

/-- The register number in the four bits from bit `b` up (00_scope.md R8). -/
def regField (iw : BitVec 16) (b : Nat) : Reg := (iw.extractLsb' b 4).toFin

/-- The mode a 2-bit field stands for (48_data_transfer.md R246). -/
def modeOf (m : BitVec 2) : Mode :=
  match m.toNat with
  | 0 => .keep
  | 1 => .postInc
  | 2 => .preDec
  | _ => .postDec

/-- The operand with specifier bits from bit `b` up (30_encoding.md R101: indirect bit above the
2-bit mode) and register field from bit `r` up. -/
def operandField (iw : BitVec 16) (b r : Nat) : Operand :=
  ⟨iw.getLsbD (b + 2), modeOf (iw.extractLsb' b 2), regField iw r⟩

/-! ### The decoder -/

/-- Format BIT by its truth-table number (R93). -/
def decodeBit (tt : Nat) (d s : Reg) : Instr :=
  match tt with
  | 0 => .bitFalse d s
  | 1 => .bitNor d s
  | 2 => .bitNcimpl d s
  | 3 => .bitNotd d s
  | 4 => .bitNimpl d s
  | 5 => .bitNots d s
  | 6 => .bitXor d s
  | 7 => .bitNand d s
  | 8 => .bitAnd d s
  | 9 => .bitXnor d s
  | 10 => .bitS d s
  | 11 => .bitImpl d s
  | 12 => .bitD d s
  | 13 => .bitCimpl d s
  | 14 => .bitOr d s
  | _ => .bitTrue d s

/-- Format ARI, register form, by its operation number (R94). -/
def decodeAri (op : Nat) (d s : Reg) : Instr :=
  match op with
  | 0 => .add d s
  | 1 => .sub d s
  | 2 => .shl d s
  | 3 => .shr d s
  | 4 => .asr d s
  | 5 => .mul d s
  | 6 => .div d s
  | _ => .mod d s

/-- Format ARI, literal form, by its operation number (R94, 41_arithmetic.md R140). -/
def decodeAriImm (op : Nat) (d : Reg) (n : Nat) : Instr :=
  match op with
  | 0 => .addImm d n
  | 1 => .subImm d n
  | 2 => .shlImm d n
  | 3 => .shrImm d n
  | 4 => .asrImm d n
  | 5 => .mulImm d n
  | 6 => .divImm d n
  | _ => .modImm d n

/-- Format CMP by its four flag bits `F` (R95). -/
def decodeCmp (f : Nat) (d s : Reg) : Instr :=
  match f with
  | 0 => .cmp d s
  | 1 => .cmpE d s
  | 2 => .cmpG d s
  | 3 => .cmpEG d s
  | 4 => .cmpS d s
  | 5 => .cmpES d s
  | 6 => .cmpGS d s
  | 7 => .cmpEGS d s
  | 8 => .cmpI d s
  | 9 => .cmpEI d s
  | 10 => .cmpGI d s
  | 11 => .cmpEGI d s
  | 12 => .cmpSI d s
  | 13 => .cmpESI d s
  | 14 => .cmpGSI d s
  | _ => .cmpEGSI d s

/-- Format JAL and its reserved words by bits 10, 9, 8 (R97, R104). -/
def decodeJal (iw : BitVec 16) : Instr :=
  if iw.getLsbD 10 then .jalReservedBit10 (field iw 10 0)
  else if iw.getLsbD 9 then .jalReservedBit9 (field iw 9 0)
  else if iw.getLsbD 8 then .jalReservedBit8 (field iw 8 0)
  else .jal (regField iw 0) (regField iw 4)

/-- The instruction an instruction word stands for, by its top bits (R91): every word is exactly one
row of the opcode table, so this is total. -/
def decodeWord (iw : BitVec 16) : Instr :=
  match (field iw 16 12).toNat with
  | 0 => .unassigned0 (field iw 12 0)
  | 1 => decodeBit (field iw 12 8).toNat (regField iw 0) (regField iw 4)
  | 2 =>
    if iw.getLsbD 11 then decodeAriImm (field iw 11 8).toNat (regField iw 0) (field iw 8 4).toNat
    else decodeAri (field iw 11 8).toNat (regField iw 0) (regField iw 4)
  | 3 => decodeCmp (field iw 12 8).toNat (regField iw 0) (regField iw 4)
  | 4 => .xf (operandField iw 8 0) (operandField iw 11 4)
  | 5 => .xf (operandField iw 8 0) (operandField iw 11 4)
  | 6 => .xf (operandField iw 8 0) (operandField iw 11 4)
  | 7 => .xf (operandField iw 8 0) (operandField iw 11 4)
  | 8 => .jc (regField iw 8) (field iw 8 0).toInt
  | 9 =>
    if iw.getLsbD 11 then .subword (regField iw 0) (field iw 8 4).toNat (field iw 11 8).toNat
    else decodeJal iw
  | 10 => .srr (regField iw 8) (field iw 8 0).toNat
  | 11 => .srw (field iw 8 0).toNat (regField iw 8)
  | 12 => .si (regField iw 0) (field iw 12 4).toNat
  | 13 => .unassignedD (field iw 12 0)
  | 14 => .unassignedE (field iw 12 0)
  | _ => .unassignedF (field iw 12 0)

/-- Why bytes decode to no instruction: a 16-bit word is the only length (R90), and every word is a
row of the table, so too few bytes is the only reason. -/
inductive DecodeRefusal where
  | fewerThanTwoBytes
  deriving DecidableEq, Repr

/-- The instruction at the front of a list of bytes, from the lowest address up, and the rest. -/
def decode (o : ByteOrder) (bs : List Byte) : Except DecodeRefusal (Instr × List Byte) :=
  match bs with
  | b0 :: b1 :: rest => .ok (decodeWord (BitVec.ofNat 16 (assemble o [b0, b1])), rest)
  | _ => .error .fewerThanTwoBytes

/-- The instruction the decoder reads from the `nbits`-bit pattern `w` of an opcode-table row: the
word laid out in memory in the byte order of `Config.prototype`, then decoded. -/
def decodeTableWord (nbits w : Nat) : Option Instr :=
  if nbits ≤ 16 then
    match decode Config.prototype.byteOrder (bytesOf Config.prototype.byteOrder 2 (BitVec.ofNat 16 w)) with
    | .ok (i, _) => some i
    | .error _ => none
  else none

/-! ### The encoder, from the formats R93 to R101 -/

/-- A register number as a 4-bit field. -/
def regBits (r : Reg) : BitVec 4 := BitVec.ofNat 4 r.val

/-- A mode as a 2-bit field (48_data_transfer.md R246). -/
def Mode.bits : Mode → BitVec 2
  | .keep => 0#2
  | .postInc => 1#2
  | .preDec => 2#2
  | .postDec => 3#2

/-- An operand's 3-bit specifier, indirect bit above mode (R101). -/
def Operand.spec (o : Operand) : BitVec 3 := BitVec.ofBool o.indirect ++ o.mode.bits

/-- Format BIT (R93). -/
def encodeBit (tt : BitVec 4) (d s : Reg) : BitVec 16 := 0b0001#4 ++ tt ++ regBits s ++ regBits d

/-- Format ARI, register form (R94). -/
def encodeAri (op : BitVec 3) (d s : Reg) : BitVec 16 := 0b0010#4 ++ 0#1 ++ op ++ regBits s ++ regBits d

/-- Format ARI, literal form (R94, R102 (c)). -/
def encodeAriImm (op : BitVec 3) (d : Reg) (n : Nat) : BitVec 16 :=
  0b0010#4 ++ 1#1 ++ op ++ BitVec.ofNat 4 n ++ regBits d

/-- Format CMP (R95). -/
def encodeCmp (f : BitVec 4) (d s : Reg) : BitVec 16 := 0b0011#4 ++ f ++ regBits s ++ regBits d

/-- The word of an instruction. -/
def encode : Instr → BitVec 16
  | .bitFalse d s => encodeBit 0#4 d s
  | .bitNor d s => encodeBit 1#4 d s
  | .bitNcimpl d s => encodeBit 2#4 d s
  | .bitNotd d s => encodeBit 3#4 d s
  | .bitNimpl d s => encodeBit 4#4 d s
  | .bitNots d s => encodeBit 5#4 d s
  | .bitXor d s => encodeBit 6#4 d s
  | .bitNand d s => encodeBit 7#4 d s
  | .bitAnd d s => encodeBit 8#4 d s
  | .bitXnor d s => encodeBit 9#4 d s
  | .bitS d s => encodeBit 10#4 d s
  | .bitImpl d s => encodeBit 11#4 d s
  | .bitD d s => encodeBit 12#4 d s
  | .bitCimpl d s => encodeBit 13#4 d s
  | .bitOr d s => encodeBit 14#4 d s
  | .bitTrue d s => encodeBit 15#4 d s
  | .add d s => encodeAri 0#3 d s
  | .sub d s => encodeAri 1#3 d s
  | .shl d s => encodeAri 2#3 d s
  | .shr d s => encodeAri 3#3 d s
  | .asr d s => encodeAri 4#3 d s
  | .mul d s => encodeAri 5#3 d s
  | .div d s => encodeAri 6#3 d s
  | .mod d s => encodeAri 7#3 d s
  | .addImm d n => encodeAriImm 0#3 d n
  | .subImm d n => encodeAriImm 1#3 d n
  | .shlImm d n => encodeAriImm 2#3 d n
  | .shrImm d n => encodeAriImm 3#3 d n
  | .asrImm d n => encodeAriImm 4#3 d n
  | .mulImm d n => encodeAriImm 5#3 d n
  | .divImm d n => encodeAriImm 6#3 d n
  | .modImm d n => encodeAriImm 7#3 d n
  | .cmp d s => encodeCmp 0#4 d s
  | .cmpE d s => encodeCmp 1#4 d s
  | .cmpG d s => encodeCmp 2#4 d s
  | .cmpEG d s => encodeCmp 3#4 d s
  | .cmpS d s => encodeCmp 4#4 d s
  | .cmpES d s => encodeCmp 5#4 d s
  | .cmpGS d s => encodeCmp 6#4 d s
  | .cmpEGS d s => encodeCmp 7#4 d s
  | .cmpI d s => encodeCmp 8#4 d s
  | .cmpEI d s => encodeCmp 9#4 d s
  | .cmpGI d s => encodeCmp 10#4 d s
  | .cmpEGI d s => encodeCmp 11#4 d s
  | .cmpSI d s => encodeCmp 12#4 d s
  | .cmpESI d s => encodeCmp 13#4 d s
  | .cmpGSI d s => encodeCmp 14#4 d s
  | .cmpEGSI d s => encodeCmp 15#4 d s
  | .xf dst src => 0b01#2 ++ src.spec ++ dst.spec ++ regBits src.reg ++ regBits dst.reg
  | .jc c off => 0b1000#4 ++ regBits c ++ BitVec.ofInt 8 off
  | .jal l p => 0b10010#5 ++ 0#3 ++ regBits p ++ regBits l
  | .subword d bi b => 0b10011#5 ++ BitVec.ofNat 3 b ++ BitVec.ofNat 4 bi ++ regBits d
  | .srr r n => 0b1010#4 ++ regBits r ++ BitVec.ofNat 8 n
  | .srw n r => 0b1011#4 ++ regBits r ++ BitVec.ofNat 8 n
  | .si d imm => 0b1100#4 ++ BitVec.ofNat 8 imm ++ regBits d
  | .jalReservedBit10 low => 0b100101#6 ++ low
  | .jalReservedBit9 low => 0b1001001#7 ++ low
  | .jalReservedBit8 low => 0b10010001#8 ++ low
  | .unassigned0 low => 0b0000#4 ++ low
  | .unassignedD low => 0b1101#4 ++ low
  | .unassignedE low => 0b1110#4 ++ low
  | .unassignedF low => 0b1111#4 ++ low

/-! ### The rows of spec/opcode_table.json -/

/-- A row of the opcode table: the words with `word & mask = pattern` (30_encoding.md section 6). -/
structure TableRow where
  pattern : BitVec 16
  mask : BitVec 16
  deriving DecidableEq, Repr

/-- The row of spec/opcode_table.json that a constructor stands for. -/
def Instr.row : Instr → TableRow
  | .bitFalse _ _ => ⟨0x1000#16, 0xFF00#16⟩
  | .bitNor _ _ => ⟨0x1100#16, 0xFF00#16⟩
  | .bitNcimpl _ _ => ⟨0x1200#16, 0xFF00#16⟩
  | .bitNotd _ _ => ⟨0x1300#16, 0xFF00#16⟩
  | .bitNimpl _ _ => ⟨0x1400#16, 0xFF00#16⟩
  | .bitNots _ _ => ⟨0x1500#16, 0xFF00#16⟩
  | .bitXor _ _ => ⟨0x1600#16, 0xFF00#16⟩
  | .bitNand _ _ => ⟨0x1700#16, 0xFF00#16⟩
  | .bitAnd _ _ => ⟨0x1800#16, 0xFF00#16⟩
  | .bitXnor _ _ => ⟨0x1900#16, 0xFF00#16⟩
  | .bitS _ _ => ⟨0x1A00#16, 0xFF00#16⟩
  | .bitImpl _ _ => ⟨0x1B00#16, 0xFF00#16⟩
  | .bitD _ _ => ⟨0x1C00#16, 0xFF00#16⟩
  | .bitCimpl _ _ => ⟨0x1D00#16, 0xFF00#16⟩
  | .bitOr _ _ => ⟨0x1E00#16, 0xFF00#16⟩
  | .bitTrue _ _ => ⟨0x1F00#16, 0xFF00#16⟩
  | .add _ _ => ⟨0x2000#16, 0xFF00#16⟩
  | .sub _ _ => ⟨0x2100#16, 0xFF00#16⟩
  | .shl _ _ => ⟨0x2200#16, 0xFF00#16⟩
  | .shr _ _ => ⟨0x2300#16, 0xFF00#16⟩
  | .asr _ _ => ⟨0x2400#16, 0xFF00#16⟩
  | .mul _ _ => ⟨0x2500#16, 0xFF00#16⟩
  | .div _ _ => ⟨0x2600#16, 0xFF00#16⟩
  | .mod _ _ => ⟨0x2700#16, 0xFF00#16⟩
  | .addImm _ _ => ⟨0x2800#16, 0xFF00#16⟩
  | .subImm _ _ => ⟨0x2900#16, 0xFF00#16⟩
  | .shlImm _ _ => ⟨0x2A00#16, 0xFF00#16⟩
  | .shrImm _ _ => ⟨0x2B00#16, 0xFF00#16⟩
  | .asrImm _ _ => ⟨0x2C00#16, 0xFF00#16⟩
  | .mulImm _ _ => ⟨0x2D00#16, 0xFF00#16⟩
  | .divImm _ _ => ⟨0x2E00#16, 0xFF00#16⟩
  | .modImm _ _ => ⟨0x2F00#16, 0xFF00#16⟩
  | .cmp _ _ => ⟨0x3000#16, 0xFF00#16⟩
  | .cmpE _ _ => ⟨0x3100#16, 0xFF00#16⟩
  | .cmpG _ _ => ⟨0x3200#16, 0xFF00#16⟩
  | .cmpEG _ _ => ⟨0x3300#16, 0xFF00#16⟩
  | .cmpS _ _ => ⟨0x3400#16, 0xFF00#16⟩
  | .cmpES _ _ => ⟨0x3500#16, 0xFF00#16⟩
  | .cmpGS _ _ => ⟨0x3600#16, 0xFF00#16⟩
  | .cmpEGS _ _ => ⟨0x3700#16, 0xFF00#16⟩
  | .cmpI _ _ => ⟨0x3800#16, 0xFF00#16⟩
  | .cmpEI _ _ => ⟨0x3900#16, 0xFF00#16⟩
  | .cmpGI _ _ => ⟨0x3A00#16, 0xFF00#16⟩
  | .cmpEGI _ _ => ⟨0x3B00#16, 0xFF00#16⟩
  | .cmpSI _ _ => ⟨0x3C00#16, 0xFF00#16⟩
  | .cmpESI _ _ => ⟨0x3D00#16, 0xFF00#16⟩
  | .cmpGSI _ _ => ⟨0x3E00#16, 0xFF00#16⟩
  | .cmpEGSI _ _ => ⟨0x3F00#16, 0xFF00#16⟩
  | .xf _ _ => ⟨0x4000#16, 0xC000#16⟩
  | .jc _ _ => ⟨0x8000#16, 0xF000#16⟩
  | .jal _ _ => ⟨0x9000#16, 0xFF00#16⟩
  | .subword _ _ _ => ⟨0x9800#16, 0xF800#16⟩
  | .srr _ _ => ⟨0xA000#16, 0xF000#16⟩
  | .srw _ _ => ⟨0xB000#16, 0xF000#16⟩
  | .si _ _ => ⟨0xC000#16, 0xF000#16⟩
  | .jalReservedBit10 _ => ⟨0x9400#16, 0xFC00#16⟩
  | .jalReservedBit9 _ => ⟨0x9200#16, 0xFE00#16⟩
  | .jalReservedBit8 _ => ⟨0x9100#16, 0xFF00#16⟩
  | .unassigned0 _ => ⟨0x0000#16, 0xF000#16⟩
  | .unassignedD _ => ⟨0xD000#16, 0xF000#16⟩
  | .unassignedE _ => ⟨0xE000#16, 0xF000#16⟩
  | .unassignedF _ => ⟨0xF000#16, 0xF000#16⟩

end Sys2Proof
end

