-- ==== Sys2Proof/Machine/State.lean ====
section
/-! DEFINITION. The machine's state as plain data, the reasons a step can stop, and the state after
reset (spec 10_state.md, 60_exceptions.md R271). -/

namespace Sys2Proof.Machine

/-- The sixteen general-purpose registers, `x[0]` the program counter (10_state.md R20, R21). -/
abbrev RegFile (w : WordSize) := Vector (Word w) 16

/-- Memory: the bytes that something has written, by byte address (10_state.md R41). An address that
is not listed holds no value (log 4). -/
abbrev Memory := List Host.Cell

/-- The canonical form: addresses strictly rising. Every listed byte differs from what an unlisted
address reads as, which is no value. -/
abbrev Memory.wf (m : Memory) : Prop := List.Pairwise (fun x y => x.1 < y.1) m

/-- What an access to memory is (60_exceptions.md R271, "whether fetch, load or store"). -/
inductive AccessKind where
  | fetch
  | load
  | store
  deriving DecidableEq, Repr

/-- The model-level stops `raise Unspecified(reason)` of 60_exceptions.md R271, the complete list of
reasons, each with what R271 says it would record, but for `uninitRead` (log 4). All are safe: the model stops where the spec
declines to say what a chip does. -/
inductive Fault where
  /-- A fetch from an odd address, or a data access at an address that is not a multiple of `WB`;
  raised by the memory operations (20_memory.md R63). Safe. -/
  | misaligned (k : AccessKind) (a : Nat)
  /-- An access that touches an address with `Mapped` false; raised by the memory operations
  (20_memory.md R65). `a` is the first address of the access, DESIGN CHOICE (log 10). Safe. -/
  | unmapped (k : AccessKind) (a : Nat)
  /-- A word with top nibble 0, D, E or F; raised by the unassigned instructions
  (30_encoding.md R103). Safe. -/
  | reservedOpcode (iw : BitVec 16)
  /-- A Jump and Link word with bits 10 to 8 not 0; raised by those instructions
  (44_jump_and_link.md R206). Safe. -/
  | reservedBits (iw : BitVec 16)
  /-- MUL, DIV or MOD on a machine without the multiplier; raised by those six instructions
  (41_arithmetic.md R161). Safe. -/
  | noMultiplier (iw : BitVec 16)
  /-- DIV or MOD with second operand 0; raised by those four instructions
  (41_arithmetic.md R160). Safe. -/
  | divideByZero (iw : BitVec 16)
  /-- SRR or SRW that the System Register table does not allow; raised by those two instructions
  (46_system_registers.md R217). Safe. -/
  | srAccess (iw : BitVec 16)
  /-- SRW to SR 3 of a value with any of bits 1 to W-1 set; raised by SRW
  (46_system_registers.md R216). Safe. -/
  | sr3ReservedBits (v : Nat)
  /-- A fetch or load of a byte that nothing has written; raised by the memory operations
  (70_reset_and_hazards.md R300 (a), log 4). Registers always hold a value. R271 gives this reason's
  record for registers only; that it is the kind and the first address of the access is a DESIGN
  CHOICE (log 4). Safe. -/
  | uninitRead (k : AccessKind) (a : Nat)
  deriving DecidableEq, Repr

/-- Refusals: an instruction with no meaning in the model. -/
inductive Refusal where
  /-- The instruction has no meaning yet; only `exec` could raise it, and no arm does. Safe. -/
  | notModelled (mnemonic : String)
  deriving DecidableEq, Repr

/-- The whole state of an ASS16/W machine (10_state.md, head table). -/
structure State where
  /-- The configuration, the model's own field: no step changes it (00_scope.md section 4, log 1). -/
  cfg : Config
  /-- `x[0]` to `x[15]` (R20); `x[0]` is the PC (R21). -/
  regs : RegFile cfg.width
  /-- SR 2, Interrupt Vector Table, plain storage (R32). -/
  ivt : Word cfg.width
  /-- SR 4, Instructions Retired (R34). -/
  retired : Word cfg.width
  /-- SR 5, Cycles Elapsed, as last written; a read is a draw (R35). -/
  cycles : Word cfg.width
  /-- How many draws reads of SR 5 have taken, the model's own field (R35, log 6). -/
  draws : Nat
  /-- Memory (R41). -/
  mem : Memory
  /-- The core has halted (R42). -/
  halted : Bool
  /-- The bytes written to SR 10, oldest first (R42). -/
  out : List Byte
  deriving DecidableEq, Repr

/-- What the spec leaves unspecified at reset (R44): the general registers other than R0, SR 2, the
memory image that the host has placed, and where the draws start. -/
structure PowerOn (w : WordSize) where
  /-- `x[1]` to `x[15]`; entry 0 is not used. -/
  regs : RegFile w
  ivt : Word w
  mem : Memory
  draws : Nat
  deriving DecidableEq, Repr

/-- The state after reset of a machine with configuration `c`, whatever the spec leaves unspecified
(10_state.md R44; 70_reset_and_hazards.md R300 treatment (b): a claim holds for every `p`). -/
def State.resetWith (c : Config) (p : PowerOn c.width) : State where
  cfg := c
  regs := p.regs.set 0 c.resetPc
  ivt := p.ivt
  retired := 0#c.width.bits
  cycles := 0#c.width.bits
  draws := p.draws
  mem := p.mem
  halted := false
  out := []

/-- The values `State.reset` names for what the spec leaves unspecified (log 3): a marker in every
register, no byte of memory written. DESIGN CHOICE, unsafe. -/
def PowerOn.named (w : WordSize) : PowerOn w where
  regs := Vector.replicate 16 (Config.unspecified w)
  ivt := Config.unspecified w
  mem := []
  draws := 0

/-- The machine right after reset: R44 for the prototype configuration (log 2, log 3). -/
def State.reset : State := State.resetWith Config.prototype (PowerOn.named Config.prototype.width)

end Sys2Proof.Machine
end

