-- ==== Sys2Proof/Machine/Ops.lean ====
section
/-! DEFINITION. The named operations over registers, memory and System Registers, the model-level
stop, and fetching an instruction word. -/

namespace Sys2Proof.Machine

/-! ### General registers -/

/-- `x[i]` of a register file (10_state.md R22: any number 0 to 15, R0 included). -/
def RegFile.read {w : WordSize} (r : RegFile w) (i : Reg) : Word w := r[i.val]

/-- `x[i] <- v` on a register file. -/
def RegFile.write {w : WordSize} (r : RegFile w) (i : Reg) (v : Word w) : RegFile w := r.set i.val v

/-- `x[i]` (00_scope.md section 6). -/
def State.reg (s : State) (i : Reg) : Word s.cfg.width := RegFile.read s.regs i

/-- `x[i] <- v`; a write of `x[0]` is a jump (10_state.md R25). -/
@[reducible] def State.setReg (s : State) (i : Reg) (v : Word s.cfg.width) : State :=
  { s with regs := RegFile.write s.regs i v }

/-- The program counter (10_state.md R21). -/
@[reducible] def State.pc (s : State) : Word s.cfg.width := s.reg Reg.pc

/-! ### Taking a stop -/

/-- `raise Unspecified(reason)` (60_exceptions.md R271, R272): ASS16 has no exception entry and no
return from one (R270, R276, R277); the run ends and no state follows. -/
def stop (f : Fault) : Host.Outcome State Fault Refusal := .fault f

/-! ### Memory -/

/-- The byte at an address, if anything has written it. -/
def Memory.get : Memory → Nat → Option Byte
  | [], _ => none
  | (k, b) :: m, a => if k = a then some b else Memory.get m a

/-- Writes one byte, keeping addresses rising. -/
def Memory.set : Memory → Nat → Byte → Memory
  | [], a, b => [(a, b)]
  | (k, x) :: m, a, b =>
    if a < k then (a, b) :: (k, x) :: m
    else if k = a then (a, b) :: m
    else (k, x) :: Memory.set m a b

/-- `Mapped(a)` (20_memory.md R65). -/
def isMapped (c : Config) (a : Nat) : Bool :=
  c.mapped.any fun r => r.base ≤ a && a < r.base + r.size

/-- The byte addresses `a, a+1, ..., a+n-1`, each mod 2^W (00_scope.md section 6). -/
def addresses {w : WordSize} (a : Word w) (n : Nat) : List Nat :=
  (List.range n).map fun k => (a.toNat + k) % 2 ^ w.bits

/-- Why an `n`-byte access at `a` stops, alignment before mapping (20_memory.md R63, R65,
60_exceptions.md R275). R271 does not say which address of an unmapped access is recorded: here it is
`a`, DESIGN CHOICE (log 10). -/
def accessFault (c : Config) (k : AccessKind) (a : Word c.width) (n : Nat) : Option Fault :=
  if a.toNat % n ≠ 0 then some (.misaligned k a.toNat)
  else if (addresses a n).all (isMapped c) then none
  else some (.unmapped k a.toNat)

/-- The bytes at the addresses, if every one has a value. -/
def Memory.getAll (m : Memory) : List Nat → Option (List Byte)
  | [] => some []
  | a :: as =>
    match Memory.get m a, Memory.getAll m as with
    | some b, some bs => some (b :: bs)
    | _, _ => none

/-- Writes bytes at addresses, one after the other. -/
def Memory.setAll (m : Memory) : List Nat → List Byte → Memory
  | a :: as, b :: bs => Memory.setAll (Memory.set m a b) as bs
  | _, _ => m

/-- `MemRead(a, n)` (00_scope.md section 6, 20_memory.md R62 to R65). A byte that nothing has written
stops it after the checks of alignment and mapping (70_reset_and_hazards.md R300 (a)); that the stop
comes last and records the kind and the first address of the access is a DESIGN CHOICE (log 4). -/
def memRead (c : Config) (m : Memory) (k : AccessKind) (a : Word c.width) (n : Nat) :
    Except Fault (BitVec (8 * n)) :=
  match accessFault c k a n with
  | some f => .error f
  | none =>
    match Memory.getAll m (addresses a n) with
    | some bs => .ok (BitVec.ofNat (8 * n) (assemble c.byteOrder bs))
    | none => .error (.uninitRead k a.toNat)

/-- `MemWrite(a, n, v)` (00_scope.md section 6, 20_memory.md R62 to R65). -/
def memWrite (c : Config) (m : Memory) (a : Word c.width) (n : Nat) (v : BitVec (8 * n)) :
    Except Fault Memory :=
  match accessFault c .store a n with
  | some f => .error f
  | none => .ok (Memory.setAll m (addresses a n) (bytesOf c.byteOrder n v))

/-- A data load: exactly one word, `WB` bytes (20_memory.md R60). -/
def loadWord (c : Config) (m : Memory) (a : Word c.width) : Except Fault (Word c.width) :=
  memRead c m .load a c.width.bytes

/-- A data store: exactly one word, `WB` bytes (20_memory.md R60). -/
def storeWord (c : Config) (m : Memory) (a v : Word c.width) : Except Fault Memory :=
  memWrite c m a c.width.bytes v

/-! ### The step's own parts (00_scope.md R11) -/

/-- `FetchInsn(x[0])`: two bytes at the program counter (20_memory.md R61). -/
def fetchInsn (s : State) : Except Fault (BitVec 16) := memRead s.cfg s.mem .fetch s.pc 2

/-- `x[0] <- (x[0] + 2) mod 2^W` (R11, 10_state.md R24). -/
@[reducible] def State.advancePc (s : State) : State := s.setReg Reg.pc (s.pc + BitVec.ofNat s.cfg.width.bits 2)

/-- `SR[4] <- (SR[4] + 1) mod 2^W` (R11, 10_state.md R34). -/
@[reducible] def State.retire (s : State) : State :=
  { s with retired := s.retired + BitVec.ofNat s.cfg.width.bits 1 }

/-- The end of a step: an instruction that completed retires (R11); a stop is not counted
(60_exceptions.md R272). -/
def finishStep : Host.Outcome State Fault Refusal → Host.Outcome State Fault Refusal
  | .next t => .next t.retire
  | .fault f => .fault f
  | .refused r => .refused r

/-- Puts an instruction word where the next fetch reads it, without the checks of an access: what
the host's loader does (70_reset_and_hazards.md R302 (a)). -/
@[reducible] def State.placeInsn (s : State) (iw : BitVec 16) : State :=
  { s with mem := Memory.setAll s.mem (addresses s.pc 2) (bytesOf s.cfg.byteOrder 2 iw) }

/-! ### System Registers -/

/-- What a read of System Register `n` gives (46_system_registers.md R215, R218); `none` where no
read is allowed (R217). -/
def readSysReg (s : State) (n : Nat) : Option (Word s.cfg.width) :=
  match n with
  | 0 => some s.cfg.modelId
  | 1 => some (BitVec.ofNat s.cfg.width.bits s.cfg.width.bits)
  | 2 => some s.ivt
  | 4 => some s.retired
  | 5 => some ((Config.cycleDraw s.draws).setWidth s.cfg.width.bits)
  | 6 => some s.cfg.coreFreqKiHz
  | 7 => some (Word.ofBool s.cfg.hasMul)
  | _ => none

/-- What a read of System Register `n` changes: nothing, but that a read of SR 5 uses up its draw
(10_state.md R35, log 6). -/
@[reducible] def State.afterSysRead (s : State) (n : Nat) : State :=
  { s with draws := if n = 5 then s.draws + 1 else s.draws }

/-- What a write of `v` to System Register `n` does (46_system_registers.md R216, R218); `iw` is the
instruction word, for the stop of an access the table does not allow (R217). -/
def writeSysReg (s : State) (n : Nat) (v : Word s.cfg.width) (iw : BitVec 16) :
    Host.Outcome State Fault Refusal :=
  match n with
  | 2 => .next { s with ivt := v }
  | 3 =>
    if v >>> 1 ≠ 0#s.cfg.width.bits then stop (.sr3ReservedBits v.toNat)
    else .next { s with halted := s.halted || v.getLsbD 0 }
  | 4 => .next { s with retired := v }
  | 5 => .next { s with cycles := v }
  | 10 => .next { s with out := s.out ++ [byteOf v 0] }
  | _ => stop (.srAccess iw)

end Sys2Proof.Machine
end

