-- ==== Sys2Proof/Machine/Operands.lean ====
section
/-! DEFINITION. The operand forms: the second operand of Arithmetic (spec 41_arithmetic.md R140), the
byte run of Subword (45_subword.md R210), the eight Data Transfer forms as source and as destination
(48_data_transfer.md R246 to R248). -/

namespace Sys2Proof.Machine

/-- The literal second operand, `zext_W(S)` (R140). -/
def literal (w : WordSize) (n : Nat) : Word w := BitVec.ofNat w.bits n

/-- The number of bytes a Subword selects: 0 stands for 8 (R210). -/
def subwordBytes (b : Nat) : Nat := if b = 0 then 8 else b

/-- `n` bytes of `v` from byte `bi` up, moved to the bottom, zero above (R210). That bytes above the
register are 0 the spec infers from the manual's listing (R210 (b), D15, log 9). -/
def subwordOf {w : WordSize} (v : Word w) (bi b : Nat) : Word w :=
  if 8 * bi ≥ w.bits then 0#w.bits
  else ((v >>> (8 * bi)).setWidth (8 * subwordBytes b)).setWidth w.bits

/-- The register before the operand's access: `0b10` steps it down by `WB` (R246). -/
def Mode.before {w : WordSize} (m : Mode) (v : Word w) : Word w :=
  match m with
  | .keep => v
  | .postInc => v
  | .preDec => v - Word.step w
  | .postDec => v

/-- The register after the operand's access: `0b01` steps it up, `0b11` down, by `WB` (R246). -/
def Mode.after {w : WordSize} (m : Mode) (v : Word w) : Word w :=
  match m with
  | .keep => v
  | .postInc => v + Word.step w
  | .preDec => v
  | .postDec => v - Word.step w

/-- `x[i] <- f(x[i])`. -/
def RegFile.update {w : WordSize} (r : RegFile w) (i : Reg) (f : Word w → Word w) : RegFile w :=
  r.write i (f (r.read i))

/-- The source phase (R245, R246): the value transferred and the registers after it. -/
def sourcePhase (c : Config) (m : Memory) (o : Operand) (r : RegFile c.width) :
    Except Fault (Word c.width × RegFile c.width) :=
  let r := RegFile.update r o.reg (Mode.before o.mode)
  let finish (v : Word c.width) := (v, RegFile.update r o.reg (Mode.after o.mode))
  if o.indirect then
    match loadWord c m (r.read o.reg) with
    | .error f => .error f
    | .ok v => .ok (finish v)
  else .ok (finish (r.read o.reg))

/-- The destination phase (R245, R247): the registers and memory after it. -/
def destPhase (c : Config) (m : Memory) (o : Operand) (v : Word c.width) (r : RegFile c.width) :
    Except Fault (RegFile c.width × Memory) :=
  let r := RegFile.update r o.reg (Mode.before o.mode)
  if o.indirect then
    match storeWord c m (r.read o.reg) v with
    | .error f => .error f
    | .ok m => .ok (RegFile.update r o.reg (Mode.after o.mode), m)
  else .ok (RegFile.update (r.write o.reg v) o.reg (Mode.after o.mode), m)

end Sys2Proof.Machine
end

