-- ==== Sys2Proof/Machine/Arithmetic.lean ====
section
/-! DEFINITION. The Arithmetic instructions (spec 41_arithmetic.md R140 to R162). -/

namespace Sys2Proof.Machine

/-! ### The operations on W-bit values (R157: every result wraps mod 2^W) -/

/-- Shift left, fill 0; the count is the whole unsigned value (R143, R158). -/
def shiftLeft {w : WordSize} (d s : Word w) : Word w := if s.toNat ≥ w.bits then 0#w.bits else d <<< s.toNat

/-- Shift right, fill 0 (R144, R158). -/
def shiftRight {w : WordSize} (d s : Word w) : Word w := if s.toNat ≥ w.bits then 0#w.bits else d >>> s.toNat

/-- Shift right, fill with the sign bit; the count saturates at `W - 1` (R145, R158). -/
def shiftArith {w : WordSize} (d s : Word w) : Word w := d.sshiftRight (min s.toNat (w.bits - 1))

/-! ### The two shapes of the group -/

/-- `x[D] <- v`, where `v` is computed from operands read before the write (R140). -/
def writeResult (d : Reg) (st : State) (v : Word st.cfg.width) : Host.Outcome State Fault Refusal := .next (st.setReg d v)

/-- An operation that needs the multiplier: without it the machine stops before an operand is read
(R161). -/
def withMultiplier (iw : BitVec 16) (st : State) (go : Host.Outcome State Fault Refusal) : Host.Outcome State Fault Refusal :=
  if st.cfg.hasMul then go else stop (.noMultiplier iw)

/-- DIV and MOD: the multiplier is tested first, then the divisor (R147, R148, R160, R161). -/
def divideOp (iw : BitVec 16) (d : Reg) (st : State) (divisor result : Word st.cfg.width) :
    Host.Outcome State Fault Refusal :=
  withMultiplier iw st
    (if divisor = 0#st.cfg.width.bits then stop (.divideByZero iw) else writeResult d st result)

/-! ### Register forms -/

/-- ADD (R141). -/
def execAdd (d s : Reg) (st : State) : Host.Outcome State Fault Refusal :=
  writeResult d st (st.reg d + st.reg s)

/-- SUB (R142). -/
def execSub (d s : Reg) (st : State) : Host.Outcome State Fault Refusal :=
  writeResult d st (st.reg d - st.reg s)

/-- SHL (R143). -/
def execShl (d s : Reg) (st : State) : Host.Outcome State Fault Refusal :=
  writeResult d st (shiftLeft (st.reg d) (st.reg s))

/-- SHR (R144). -/
def execShr (d s : Reg) (st : State) : Host.Outcome State Fault Refusal :=
  writeResult d st (shiftRight (st.reg d) (st.reg s))

/-- ASR (R145). -/
def execAsr (d s : Reg) (st : State) : Host.Outcome State Fault Refusal :=
  writeResult d st (shiftArith (st.reg d) (st.reg s))

/-- MUL (R146). -/
def execMul (d s : Reg) (st : State) : Host.Outcome State Fault Refusal :=
  withMultiplier (encode (.mul d s)) st (writeResult d st (st.reg d * st.reg s))

/-- DIV (R147). -/
def execDiv (d s : Reg) (st : State) : Host.Outcome State Fault Refusal :=
  divideOp (encode (.div d s)) d st (st.reg s) (st.reg d / st.reg s)

/-- MOD (R148). -/
def execMod (d s : Reg) (st : State) : Host.Outcome State Fault Refusal :=
  divideOp (encode (.mod d s)) d st (st.reg s) (st.reg d % st.reg s)

/-! ### Literal forms (R140: the 4-bit field is the second operand) -/

/-- ADD_IMM (R149). -/
def execAddImm (d : Reg) (n : Nat) (st : State) : Host.Outcome State Fault Refusal :=
  writeResult d st (st.reg d + literal st.cfg.width n)

/-- SUB_IMM (R150). -/
def execSubImm (d : Reg) (n : Nat) (st : State) : Host.Outcome State Fault Refusal :=
  writeResult d st (st.reg d - literal st.cfg.width n)

/-- SHL_IMM (R151). -/
def execShlImm (d : Reg) (n : Nat) (st : State) : Host.Outcome State Fault Refusal :=
  writeResult d st (shiftLeft (st.reg d) (literal st.cfg.width n))

/-- SHR_IMM (R152). -/
def execShrImm (d : Reg) (n : Nat) (st : State) : Host.Outcome State Fault Refusal :=
  writeResult d st (shiftRight (st.reg d) (literal st.cfg.width n))

/-- ASR_IMM (R153). -/
def execAsrImm (d : Reg) (n : Nat) (st : State) : Host.Outcome State Fault Refusal :=
  writeResult d st (shiftArith (st.reg d) (literal st.cfg.width n))

/-- MUL_IMM (R154). -/
def execMulImm (d : Reg) (n : Nat) (st : State) : Host.Outcome State Fault Refusal :=
  withMultiplier (encode (.mulImm d n)) st (writeResult d st (st.reg d * literal st.cfg.width n))

/-- DIV_IMM (R155). -/
def execDivImm (d : Reg) (n : Nat) (st : State) : Host.Outcome State Fault Refusal :=
  divideOp (encode (.divImm d n)) d st (literal st.cfg.width n) (st.reg d / literal st.cfg.width n)

/-- MOD_IMM (R156). -/
def execModImm (d : Reg) (n : Nat) (st : State) : Host.Outcome State Fault Refusal :=
  divideOp (encode (.modImm d n)) d st (literal st.cfg.width n) (st.reg d % literal st.cfg.width n)

end Sys2Proof.Machine
end

