-- ==== Sys2Proof/Machine/Bitwise.lean ====
section
/-! DEFINITION. The Bitwise instructions (spec 40_bitwise.md R120 to R137). -/

namespace Sys2Proof.Machine

/-- The bits of one entry of the truth table: all ones where bit `idx` of `tt` is 1. -/
def lutEntry {w : WordSize} (tt : BitVec 4) (idx : Nat) : Word w :=
  if tt.getLsbD idx then BitVec.allOnes w.bits else 0#w.bits

/-- The truth table `tt` applied at every bit position, with index `2 * d[i] + s[i]` (R120): the union
over the four indices of the positions that have that index and whose entry is 1. -/
def bitLut {w : WordSize} (tt : BitVec 4) (d s : Word w) : Word w :=
  (lutEntry tt 3 &&& (d &&& s)) ||| (lutEntry tt 2 &&& (d &&& ~~~s)) |||
  (lutEntry tt 1 &&& (~~~d &&& s)) ||| (lutEntry tt 0 &&& (~~~d &&& ~~~s))

/-- BIT with truth-table number `tt` (R120): both operands are read before the write. -/
def bitwise (tt : BitVec 4) (d s : Reg) (st : State) : Host.Outcome State Fault Refusal :=
  .next (st.setReg d (bitLut tt (st.reg d) (st.reg s)))

/-- BIT.FALSE, `TT = 0` (R121). -/
def execBitFalse (d s : Reg) (st : State) : Host.Outcome State Fault Refusal := bitwise 0#4 d s st

/-- BIT.NOR, `TT = 1` (R122). -/
def execBitNor (d s : Reg) (st : State) : Host.Outcome State Fault Refusal := bitwise 1#4 d s st

/-- BIT.NCIMPL, `TT = 2` (R123). -/
def execBitNcimpl (d s : Reg) (st : State) : Host.Outcome State Fault Refusal := bitwise 2#4 d s st

/-- BIT.NOTD, `TT = 3` (R124). -/
def execBitNotd (d s : Reg) (st : State) : Host.Outcome State Fault Refusal := bitwise 3#4 d s st

/-- BIT.NIMPL, `TT = 4` (R125). -/
def execBitNimpl (d s : Reg) (st : State) : Host.Outcome State Fault Refusal := bitwise 4#4 d s st

/-- BIT.NOTS, `TT = 5` (R126). -/
def execBitNots (d s : Reg) (st : State) : Host.Outcome State Fault Refusal := bitwise 5#4 d s st

/-- BIT.XOR, `TT = 6` (R127). -/
def execBitXor (d s : Reg) (st : State) : Host.Outcome State Fault Refusal := bitwise 6#4 d s st

/-- BIT.NAND, `TT = 7` (R128). -/
def execBitNand (d s : Reg) (st : State) : Host.Outcome State Fault Refusal := bitwise 7#4 d s st

/-- BIT.AND, `TT = 8` (R129). -/
def execBitAnd (d s : Reg) (st : State) : Host.Outcome State Fault Refusal := bitwise 8#4 d s st

/-- BIT.XNOR, `TT = 9` (R130). -/
def execBitXnor (d s : Reg) (st : State) : Host.Outcome State Fault Refusal := bitwise 9#4 d s st

/-- BIT.S, `TT = 10` (R131). -/
def execBitS (d s : Reg) (st : State) : Host.Outcome State Fault Refusal := bitwise 10#4 d s st

/-- BIT.IMPL, `TT = 11` (R132). -/
def execBitImpl (d s : Reg) (st : State) : Host.Outcome State Fault Refusal := bitwise 11#4 d s st

/-- BIT.D, `TT = 12` (R133). -/
def execBitD (d s : Reg) (st : State) : Host.Outcome State Fault Refusal := bitwise 12#4 d s st

/-- BIT.CIMPL, `TT = 13` (R134). -/
def execBitCimpl (d s : Reg) (st : State) : Host.Outcome State Fault Refusal := bitwise 13#4 d s st

/-- BIT.OR, `TT = 14` (R135). -/
def execBitOr (d s : Reg) (st : State) : Host.Outcome State Fault Refusal := bitwise 14#4 d s st

/-- BIT.TRUE, `TT = 15` (R136). -/
def execBitTrue (d s : Reg) (st : State) : Host.Outcome State Fault Refusal := bitwise 15#4 d s st

end Sys2Proof.Machine
end

