-- ==== Sys2Proof/Machine/Flags.lean ====
section
/-! DEFINITION. ASS16 has no status flags (spec 10_state.md R27). The flags it has are the four bits
of a Comparison word, which choose a test; this file computes the test (42_comparison.md R170,
R188). -/

namespace Sys2Proof.Machine

/-- The flag bits of a Comparison word (30_encoding.md R95). -/
structure CmpFlags where
  /-- "Invert Flag", `Inv`. -/
  inv : Bool
  /-- "Sign Flag", `Sg`. -/
  sg : Bool
  /-- "Greater Test", `G`. -/
  g : Bool
  /-- "Equality Test", `E`. -/
  e : Bool
  deriving DecidableEq, Repr

/-- `d > s`, sign-respecting if `sg` (R170, R188). -/
def greater {w : WordSize} (sg : Bool) (d s : Word w) : Bool := if sg then s.slt d else s.ult d

/-- The internal test, before inversion (R170). -/
def internalTest {w : WordSize} (f : CmpFlags) (d s : Word w) : Bool :=
  (f.e && d == s) || (f.g && greater f.sg d s)

/-- The final test (R170). -/
def finalTest {w : WordSize} (f : CmpFlags) (d s : Word w) : Bool :=
  if f.inv then !internalTest f d s else internalTest f d s

/-- The value a Comparison writes: `CMP_TRUE = 1` or 0 (R170, R171). -/
def cmpResult {w : WordSize} (f : CmpFlags) (d s : Word w) : Word w := Word.ofBool (finalTest f d s)

end Sys2Proof.Machine
end

