-- ==== Sys2Proof/Machine/Comparison.lean ====
section
/-! DEFINITION. The Comparison instructions (spec 42_comparison.md R170 to R188). -/

namespace Sys2Proof.Machine

/-- CMP with flag bits `f` (R170): both operands are read before the write. -/
def compare (f : CmpFlags) (d s : Reg) (st : State) : Host.Outcome State Fault Refusal :=
  .next (st.setReg d (cmpResult f (st.reg d) (st.reg s)))

/-- CMP, `F = 0` (R172). -/
def execCmp (d s : Reg) (st : State) : Host.Outcome State Fault Refusal :=
  compare ⟨false, false, false, false⟩ d s st

/-- CMP.E, `F = 1` (R173). -/
def execCmpE (d s : Reg) (st : State) : Host.Outcome State Fault Refusal :=
  compare ⟨false, false, false, true⟩ d s st

/-- CMP.G, `F = 2` (R174). -/
def execCmpG (d s : Reg) (st : State) : Host.Outcome State Fault Refusal :=
  compare ⟨false, false, true, false⟩ d s st

/-- CMP.EG, `F = 3` (R175). -/
def execCmpEG (d s : Reg) (st : State) : Host.Outcome State Fault Refusal :=
  compare ⟨false, false, true, true⟩ d s st

/-- CMP.S, `F = 4` (R176). -/
def execCmpS (d s : Reg) (st : State) : Host.Outcome State Fault Refusal :=
  compare ⟨false, true, false, false⟩ d s st

/-- CMP.ES, `F = 5` (R177). -/
def execCmpES (d s : Reg) (st : State) : Host.Outcome State Fault Refusal :=
  compare ⟨false, true, false, true⟩ d s st

/-- CMP.GS, `F = 6` (R178). -/
def execCmpGS (d s : Reg) (st : State) : Host.Outcome State Fault Refusal :=
  compare ⟨false, true, true, false⟩ d s st

/-- CMP.EGS, `F = 7` (R179). -/
def execCmpEGS (d s : Reg) (st : State) : Host.Outcome State Fault Refusal :=
  compare ⟨false, true, true, true⟩ d s st

/-- CMP.I, `F = 8` (R180). -/
def execCmpI (d s : Reg) (st : State) : Host.Outcome State Fault Refusal :=
  compare ⟨true, false, false, false⟩ d s st

/-- CMP.EI, `F = 9` (R181). -/
def execCmpEI (d s : Reg) (st : State) : Host.Outcome State Fault Refusal :=
  compare ⟨true, false, false, true⟩ d s st

/-- CMP.GI, `F = 10` (R182). -/
def execCmpGI (d s : Reg) (st : State) : Host.Outcome State Fault Refusal :=
  compare ⟨true, false, true, false⟩ d s st

/-- CMP.EGI, `F = 11` (R183). -/
def execCmpEGI (d s : Reg) (st : State) : Host.Outcome State Fault Refusal :=
  compare ⟨true, false, true, true⟩ d s st

/-- CMP.SI, `F = 12` (R184). -/
def execCmpSI (d s : Reg) (st : State) : Host.Outcome State Fault Refusal :=
  compare ⟨true, true, false, false⟩ d s st

/-- CMP.ESI, `F = 13` (R185). -/
def execCmpESI (d s : Reg) (st : State) : Host.Outcome State Fault Refusal :=
  compare ⟨true, true, false, true⟩ d s st

/-- CMP.GSI, `F = 14` (R186). -/
def execCmpGSI (d s : Reg) (st : State) : Host.Outcome State Fault Refusal :=
  compare ⟨true, true, true, false⟩ d s st

/-- CMP.EGSI, `F = 15` (R187). -/
def execCmpEGSI (d s : Reg) (st : State) : Host.Outcome State Fault Refusal :=
  compare ⟨true, true, true, true⟩ d s st

end Sys2Proof.Machine
end

