-- ==== Sys2Proof/Machine/Control.lean ====
section
/-! DEFINITION. The control-flow instructions: Conditional (spec 43_conditional.md R200) and Jump and
Link (44_jump_and_link.md R205). While they execute, `x[0]` holds the address of the next instruction
(10_state.md R23). -/

namespace Sys2Proof.Machine

/-- The byte displacement of an offset counted in instruction words of 2 bytes (R200, R201). -/
def displacement (w : WordSize) (off : Int) : Word w := BitVec.ofInt w.bits (2 * off)

/-- JC (R200). -/
def execJc (c : Reg) (off : Int) (st : State) : Host.Outcome State Fault Refusal :=
  .next (st.setReg Reg.pc
    (if st.reg c ≠ 0#st.cfg.width.bits then st.pc + displacement st.cfg.width off else st.pc))

/-- JAL (R205): the link register is written first, then the program register is read. -/
def execJal (l p : Reg) (st : State) : Host.Outcome State Fault Refusal :=
  let linked := RegFile.write st.regs l st.pc
  .next { st with regs := RegFile.write linked Reg.pc (RegFile.read linked p) }

end Sys2Proof.Machine
end

