-- ==== Sys2Proof/Machine/DataTransfer.lean ====
section
/-! DEFINITION. The Data Transfer instruction (spec 48_data_transfer.md R245 to R252). -/

namespace Sys2Proof.Machine

/-- XF (R245): the source phase, then the destination phase. -/
def execXf (dst src : Operand) (st : State) : Host.Outcome State Fault Refusal :=
  match sourcePhase st.cfg st.mem src st.regs with
  | .error f => stop f
  | .ok (v, r) =>
    match destPhase st.cfg st.mem dst v r with
    | .error f => stop f
    | .ok (r, m) => .next { st with regs := r, mem := m }

end Sys2Proof.Machine
end

