-- ==== Sys2Proof/Machine/Immediate.lean ====
section
/-! DEFINITION. The Small Immediate instruction (spec 47_small_immediate.md R240). -/

namespace Sys2Proof.Machine

/-- SI (R240): the old value of the register is not read. -/
def execSi (d : Reg) (imm : Nat) (st : State) : Host.Outcome State Fault Refusal :=
  .next (st.setReg d (literal st.cfg.width imm))

end Sys2Proof.Machine
end

