-- ==== Sys2Proof/Machine/Subword.lean ====
section
/-! DEFINITION. The Subword Operation (spec 45_subword.md R210). -/

namespace Sys2Proof.Machine

/-- SUBWORD (R210). -/
def execSubword (d : Reg) (bi b : Nat) (st : State) : Host.Outcome State Fault Refusal :=
  .next (st.setReg d (subwordOf (st.reg d) bi b))

end Sys2Proof.Machine
end

