-- ==== Sys2Proof/Machine/SystemRegisters.lean ====
section
/-! DEFINITION. System Register access (spec 46_system_registers.md R215 to R218). -/

namespace Sys2Proof.Machine

/-- SRR (R215); a read the table does not allow stops (R217). -/
def execSrr (r : Reg) (n : Nat) (st : State) : Host.Outcome State Fault Refusal :=
  match readSysReg st n with
  | some v => .next { st.afterSysRead n with regs := RegFile.write st.regs r v }
  | none => stop (.srAccess (encode (.srr r n)))

/-- SRW (R216); a write the table does not allow stops (R217). -/
def execSrw (n : Nat) (r : Reg) (st : State) : Host.Outcome State Fault Refusal :=
  writeSysReg st n (st.reg r) (encode (.srw n r))

end Sys2Proof.Machine
end

