-- ==== Sys2Proof/Machine/Unassigned.lean ====
section
/-! DEFINITION. The words the spec assigns to no instruction: Jump and Link with a reserved bit set
(44_jump_and_link.md R206) and the unassigned top nibbles (30_encoding.md R103). The spec gives them
no effect: executing one stops the model before any register is written. -/

namespace Sys2Proof.Machine

/-- A Jump and Link word with bit 10 set (R206). -/
def execJalReservedBit10 (low : BitVec 10) (_st : State) : Host.Outcome State Fault Refusal :=
  stop (.reservedBits (encode (.jalReservedBit10 low)))

/-- A Jump and Link word with bit 10 clear and bit 9 set (R206). -/
def execJalReservedBit9 (low : BitVec 9) (_st : State) : Host.Outcome State Fault Refusal :=
  stop (.reservedBits (encode (.jalReservedBit9 low)))

/-- A Jump and Link word with bits 10 and 9 clear and bit 8 set (R206). -/
def execJalReservedBit8 (low : BitVec 8) (_st : State) : Host.Outcome State Fault Refusal :=
  stop (.reservedBits (encode (.jalReservedBit8 low)))

/-- A word with top nibble 0 (R103). -/
def execUnassigned0 (low : BitVec 12) (_st : State) : Host.Outcome State Fault Refusal :=
  stop (.reservedOpcode (encode (.unassigned0 low)))

/-- A word with top nibble D (R103). -/
def execUnassignedD (low : BitVec 12) (_st : State) : Host.Outcome State Fault Refusal :=
  stop (.reservedOpcode (encode (.unassignedD low)))

/-- A word with top nibble E (R103). -/
def execUnassignedE (low : BitVec 12) (_st : State) : Host.Outcome State Fault Refusal :=
  stop (.reservedOpcode (encode (.unassignedE low)))

/-- A word with top nibble F (R103). -/
def execUnassignedF (low : BitVec 12) (_st : State) : Host.Outcome State Fault Refusal :=
  stop (.reservedOpcode (encode (.unassignedF low)))

end Sys2Proof.Machine
end

