-- ==== Sys2Proof/Machine/Dispatch.lean ====
section
/-! DEFINITION. The meaning of every instruction, one arm per constructor: a direct call of its own
definition. -/

namespace Sys2Proof.Machine

def exec (i : Instr) (s : State) : Host.Outcome State Fault Refusal :=
  match i with
  | .bitFalse d r => Sys2Proof.Machine.execBitFalse d r s
  | .bitNor d r => Sys2Proof.Machine.execBitNor d r s
  | .bitNcimpl d r => Sys2Proof.Machine.execBitNcimpl d r s
  | .bitNotd d r => Sys2Proof.Machine.execBitNotd d r s
  | .bitNimpl d r => Sys2Proof.Machine.execBitNimpl d r s
  | .bitNots d r => Sys2Proof.Machine.execBitNots d r s
  | .bitXor d r => Sys2Proof.Machine.execBitXor d r s
  | .bitNand d r => Sys2Proof.Machine.execBitNand d r s
  | .bitAnd d r => Sys2Proof.Machine.execBitAnd d r s
  | .bitXnor d r => Sys2Proof.Machine.execBitXnor d r s
  | .bitS d r => Sys2Proof.Machine.execBitS d r s
  | .bitImpl d r => Sys2Proof.Machine.execBitImpl d r s
  | .bitD d r => Sys2Proof.Machine.execBitD d r s
  | .bitCimpl d r => Sys2Proof.Machine.execBitCimpl d r s
  | .bitOr d r => Sys2Proof.Machine.execBitOr d r s
  | .bitTrue d r => Sys2Proof.Machine.execBitTrue d r s
  | .add d r => Sys2Proof.Machine.execAdd d r s
  | .sub d r => Sys2Proof.Machine.execSub d r s
  | .shl d r => Sys2Proof.Machine.execShl d r s
  | .shr d r => Sys2Proof.Machine.execShr d r s
  | .asr d r => Sys2Proof.Machine.execAsr d r s
  | .mul d r => Sys2Proof.Machine.execMul d r s
  | .div d r => Sys2Proof.Machine.execDiv d r s
  | .mod d r => Sys2Proof.Machine.execMod d r s
  | .addImm d n => Sys2Proof.Machine.execAddImm d n s
  | .subImm d n => Sys2Proof.Machine.execSubImm d n s
  | .shlImm d n => Sys2Proof.Machine.execShlImm d n s
  | .shrImm d n => Sys2Proof.Machine.execShrImm d n s
  | .asrImm d n => Sys2Proof.Machine.execAsrImm d n s
  | .mulImm d n => Sys2Proof.Machine.execMulImm d n s
  | .divImm d n => Sys2Proof.Machine.execDivImm d n s
  | .modImm d n => Sys2Proof.Machine.execModImm d n s
  | .cmp d r => Sys2Proof.Machine.execCmp d r s
  | .cmpE d r => Sys2Proof.Machine.execCmpE d r s
  | .cmpG d r => Sys2Proof.Machine.execCmpG d r s
  | .cmpEG d r => Sys2Proof.Machine.execCmpEG d r s
  | .cmpS d r => Sys2Proof.Machine.execCmpS d r s
  | .cmpES d r => Sys2Proof.Machine.execCmpES d r s
  | .cmpGS d r => Sys2Proof.Machine.execCmpGS d r s
  | .cmpEGS d r => Sys2Proof.Machine.execCmpEGS d r s
  | .cmpI d r => Sys2Proof.Machine.execCmpI d r s
  | .cmpEI d r => Sys2Proof.Machine.execCmpEI d r s
  | .cmpGI d r => Sys2Proof.Machine.execCmpGI d r s
  | .cmpEGI d r => Sys2Proof.Machine.execCmpEGI d r s
  | .cmpSI d r => Sys2Proof.Machine.execCmpSI d r s
  | .cmpESI d r => Sys2Proof.Machine.execCmpESI d r s
  | .cmpGSI d r => Sys2Proof.Machine.execCmpGSI d r s
  | .cmpEGSI d r => Sys2Proof.Machine.execCmpEGSI d r s
  | .xf dst src => Sys2Proof.Machine.execXf dst src s
  | .jc c off => Sys2Proof.Machine.execJc c off s
  | .jal l p => Sys2Proof.Machine.execJal l p s
  | .subword d bi b => Sys2Proof.Machine.execSubword d bi b s
  | .srr r n => Sys2Proof.Machine.execSrr r n s
  | .srw n r => Sys2Proof.Machine.execSrw n r s
  | .si d imm => Sys2Proof.Machine.execSi d imm s
  | .jalReservedBit10 low => Sys2Proof.Machine.execJalReservedBit10 low s
  | .jalReservedBit9 low => Sys2Proof.Machine.execJalReservedBit9 low s
  | .jalReservedBit8 low => Sys2Proof.Machine.execJalReservedBit8 low s
  | .unassigned0 low => Sys2Proof.Machine.execUnassigned0 low s
  | .unassignedD low => Sys2Proof.Machine.execUnassignedD low s
  | .unassignedE low => Sys2Proof.Machine.execUnassignedE low s
  | .unassignedF low => Sys2Proof.Machine.execUnassignedF low s

end Sys2Proof.Machine
end

