-- ==== Sys2Proof/Machine/Step.lean ====
section
/-! DEFINITION. One step of the core (spec 00_scope.md R11) and the placing of a word where the next
step fetches it. -/

namespace Sys2Proof.Machine

/-- One step (R11): a halted core stays as it is (60_exceptions.md R285); otherwise the word at `x[0]`
is fetched, `x[0]` advances by 2, the instruction executes, and SR 4 counts it. -/
def step (s : State) : Host.Outcome State Fault Refusal :=
  if s.halted then .next s
  else
    match fetchInsn s with
    | .error f => stop f
    | .ok iw => finishStep (exec (decodeWord iw) s.advancePc)

/-- The state with the instruction word `w` in memory at `x[0]`, where `step` fetches (log 5). Every
instruction is 16 bits long, so no bit lies above `nbits`. -/
@[reducible] def State.withFetchWord (s : State) (_nbits w : Nat) : State := s.placeInsn (BitVec.ofNat 16 w)

end Sys2Proof.Machine
end

