-- ==== Sys2Proof/Safety.lean ====
section
/-! DEFINITION. What a good state, a frame and a run are: the terms the claims about the machine are
stated in. Registers of two states are compared as numbers, because their types name their own
state's word size. -/

namespace Sys2Proof.Machine

/-! ### Good states -/

/-- Every listed byte is at an address of the space (10_state.md R41) that is mapped (20_memory.md
R65). -/
abbrev Memory.within (c : Config) (m : Memory) : Prop :=
  ∀ p ∈ m, p.1 < 2 ^ c.width.bits ∧ isMapped c p.1 = true

/-- The invariant of the machine: memory is in canonical form and lists existing bytes only. -/
abbrev State.Inv (s : State) : Prop := Memory.wf s.mem ∧ Memory.within s.cfg s.mem

/-! ### Reading a state -/

/-- `x[i]` as an unsigned number. -/
abbrev State.x (s : State) (i : Reg) : Nat := (s.reg i).toNat

/-- `W` of the machine, in bits. -/
abbrev State.W (s : State) : Nat := s.cfg.width.bits

/-- `WB` of the machine, in bytes. -/
abbrev State.WB (s : State) : Nat := s.cfg.width.bytes

/-! ### Frames -/

/-- The configuration, the System Registers, the halt flag and the output are as before. -/
def SameSystem (s t : State) : Prop :=
  t.cfg = s.cfg ∧ t.ivt.toNat = s.ivt.toNat ∧ t.retired.toNat = s.retired.toNat ∧
    t.cycles.toNat = s.cycles.toNat ∧ t.draws = s.draws ∧ t.halted = s.halted ∧ t.out = s.out

/-- Every byte of memory is as before. -/
def SameMemory (s t : State) : Prop := ∀ a, Memory.get t.mem a = Memory.get s.mem a

/-- Every register not in the list is as before. -/
def SameRegsBut (l : List Reg) (s t : State) : Prop := ∀ j, j ∉ l → t.x j = s.x j

/-- `x[d]` becomes `v` and nothing else changes. -/
def OnlyReg (d : Reg) (v : Nat) (s t : State) : Prop :=
  t.x d = v ∧ SameRegsBut [d] s t ∧ SameSystem s t ∧ SameMemory s t

/-- The instruction completes, with a next state as described. -/
def Completes (i : Instr) (s : State) (post : State → Prop) : Prop :=
  ∃ t, exec i s = .next t ∧ post t

/-- The instruction completes, `x[d]` becomes `v` and nothing else changes. -/
def Sets (i : Instr) (d : Reg) (v : Nat) (s : State) : Prop := Completes i s (OnlyReg d v s)

/-- The instruction stops the model. -/
def StopsWith (i : Instr) (s : State) (f : Fault) : Prop := exec i s = .fault f

/-- The general registers an instruction may write: its destination, `x[0]` of a jump, the registers
that a Data Transfer mode steps. -/
def writtenRegs : Instr → List Reg
  | .bitFalse d _ => [d]
  | .bitNor d _ => [d]
  | .bitNcimpl d _ => [d]
  | .bitNotd d _ => [d]
  | .bitNimpl d _ => [d]
  | .bitNots d _ => [d]
  | .bitXor d _ => [d]
  | .bitNand d _ => [d]
  | .bitAnd d _ => [d]
  | .bitXnor d _ => [d]
  | .bitS d _ => [d]
  | .bitImpl d _ => [d]
  | .bitD d _ => [d]
  | .bitCimpl d _ => [d]
  | .bitOr d _ => [d]
  | .bitTrue d _ => [d]
  | .add d _ => [d]
  | .sub d _ => [d]
  | .shl d _ => [d]
  | .shr d _ => [d]
  | .asr d _ => [d]
  | .mul d _ => [d]
  | .div d _ => [d]
  | .mod d _ => [d]
  | .addImm d _ => [d]
  | .subImm d _ => [d]
  | .shlImm d _ => [d]
  | .shrImm d _ => [d]
  | .asrImm d _ => [d]
  | .mulImm d _ => [d]
  | .divImm d _ => [d]
  | .modImm d _ => [d]
  | .cmp d _ => [d]
  | .cmpE d _ => [d]
  | .cmpG d _ => [d]
  | .cmpEG d _ => [d]
  | .cmpS d _ => [d]
  | .cmpES d _ => [d]
  | .cmpGS d _ => [d]
  | .cmpEGS d _ => [d]
  | .cmpI d _ => [d]
  | .cmpEI d _ => [d]
  | .cmpGI d _ => [d]
  | .cmpEGI d _ => [d]
  | .cmpSI d _ => [d]
  | .cmpESI d _ => [d]
  | .cmpGSI d _ => [d]
  | .cmpEGSI d _ => [d]
  | .xf dst src =>
    (if dst.indirect = true ∧ dst.mode = .keep then [] else [dst.reg]) ++
      (if src.mode = .keep then [] else [src.reg])
  | .jc _ _ => [Reg.pc]
  | .jal l _ => [l, Reg.pc]
  | .subword d _ _ => [d]
  | .srr r _ => [r]
  | .srw _ _ => []
  | .si d _ => [d]
  | .jalReservedBit10 _ => []
  | .jalReservedBit9 _ => []
  | .jalReservedBit8 _ => []
  | .unassigned0 _ => []
  | .unassignedD _ => []
  | .unassignedE _ => []
  | .unassignedF _ => []

/-- The mode's 2-bit number (48_data_transfer.md R246). -/
def Mode.number : Mode → Nat
  | .keep => 0
  | .postInc => 1
  | .preDec => 2
  | .postDec => 3

/-! ### Data Transfer in the words of the claims (48_data_transfer.md R245) -/

/-- The address or value register of an operand when its access happens. -/
def accessValue (s : State) (o : Operand) : Word s.cfg.width := Mode.before o.mode (s.reg o.reg)

/-- Every register when the source phase has ended. -/
def afterSource (s : State) (src : Operand) (j : Reg) : Word s.cfg.width :=
  if j = src.reg then Mode.after src.mode (accessValue s src) else s.reg j

/-- The destination register when the store happens. -/
def storeValue (s : State) (dst src : Operand) : Word s.cfg.width :=
  Mode.before dst.mode (afterSource s src dst.reg)

/-- A data access at `a` is aligned and every byte it touches is mapped (20_memory.md R63, R65). -/
def Accessible (s : State) (a : Word s.cfg.width) : Prop :=
  a.toNat % s.WB = 0 ∧ ∀ k, k < s.WB → isMapped s.cfg ((a.toNat + k) % 2 ^ s.W) = true

/-- The word in memory at `a` is `v`: its bytes have values, in memory order (20_memory.md R62). -/
def HoldsWord (s : State) (a v : Word s.cfg.width) : Prop :=
  Memory.getAll s.mem (addresses a s.WB) = some (bytesOf s.cfg.byteOrder s.WB v)

/-- The value the source operand supplies is `v` (R246). -/
def Supplies (s : State) (src : Operand) (v : Word s.cfg.width) : Prop :=
  if src.indirect = true then Accessible s (accessValue s src) ∧ HoldsWord s (accessValue s src) v
  else v = accessValue s src

/-! ### ASS16/16 seen with the other byte order (20_memory.md R75) -/

/-- The other byte order. -/
def ByteOrder.other : ByteOrder → ByteOrder
  | .little => .big
  | .big => .little

/-- The other byte of an aligned 2-byte cell. -/
def cellPartner (a : Nat) : Nat := if a % 2 = 0 then a + 1 else a - 1

/-- The same machine with the other byte order and the two bytes of every 2-byte cell exchanged. -/
def ByteSwapped (s t : State) : Prop :=
  ∃ m : Memory,
    t = { s with cfg := { s.cfg with byteOrder := ByteOrder.other s.cfg.byteOrder }, mem := m } ∧
      ∀ a, Memory.get m a = Memory.get s.mem (cellPartner a)

/-! ### Runs (70_reset_and_hazards.md R305) -/

/-- `k` steps from `s` lead to `t`. -/
def RunsTo (k : Nat) (s t : State) : Prop := Host.Core.run Sys2Proof.core k s = .next t

/-- The run from `s` ends halted, the defined end of a program (R305 (a)). -/
def Halts (s : State) : Prop := ∃ k t, RunsTo k s t ∧ t.halted = true

/-- The run from `s` ends in a stop (R305 (b)). -/
def Stops (s : State) : Prop := ∃ k f, Host.Core.run Sys2Proof.core k s = .fault f

/-- No step of the run from `s` stops: a safe run. -/
def Safe (s : State) : Prop := ∀ k, ∃ t, RunsTo k s t

end Sys2Proof.Machine
end

