-- ==== Sys2Proof/Certificates/Slice0/Obligations.lean ====
section
/-! DEFINITION. The statements for the provers, each a proposition about the machine. Registers, widths and
frames are read through the terms of Sys2Proof/Safety.lean. A clause that rests on a choice of the spec's
own (D1 to D32) or of the model's says so in its docstring and names the log entry. -/

open Sys2Proof Sys2Proof.Machine

/-- No bit of an encoding is dropped, for every instruction (formats R93 to R101). -/
def Obligations.DecodeInvertsEncode : Prop :=
  ∀ i : Instr, WellFormed i → decodeWord (encode i) = i

/-- Each of the 65536 words has one meaning and one spelling (30_encoding.md section 6). -/
def Obligations.EncodeInvertsDecode : Prop :=
  ∀ w : BitVec 16, WellFormed (decodeWord w) ∧ encode (decodeWord w) = w

/-- "every one of the 65536 instruction words matches exactly one row by word & mask = match" (30_encoding.md section 6, marked derived there). -/
def Obligations.EveryWordMatchesExactlyOneTableRow : Prop :=
  ∀ w : BitVec 16, w &&& (decodeWord w).row.mask = (decodeWord w).row.pattern ∧
    ∀ i : Instr, w &&& i.row.mask = i.row.pattern → i.row = (decodeWord w).row

/-- Words printed in the examples of the instruction rules. -/
def Obligations.SpecWordsDecode : Prop :=
  decodeWord 0x1621#16 = .bitXor 1 2 ∧
    decodeWord 0x2621#16 = .div 1 2 ∧
    decodeWord 0x2DA1#16 = .mulImm 1 10 ∧
    decodeWord 0x3E21#16 = .cmpGSI 1 2 ∧
    decodeWord 0x461F#16 = .xf ⟨true, .preDec, 15⟩ ⟨false, .keep, 1⟩ ∧
    decodeWord 0x68F2#16 = .xf ⟨false, .keep, 2⟩ ⟨true, .postInc, 15⟩ ∧
    decodeWord 0x81FD#16 = .jc 1 (-3) ∧
    decodeWord 0x9053#16 = .jal 3 5 ∧
    decodeWord 0x9A11#16 = .subword 1 1 2 ∧
    decodeWord 0xA101#16 = .srr 1 1 ∧
    decodeWord 0xB403#16 = .srw 3 4 ∧
    decodeWord 0xC121#16 = .si 1 0x12 ∧
    decodeWord 0x9153#16 = .jalReservedBit8 0x53#8 ∧
    decodeWord 0xE123#16 = .unassignedE 0x123#12

/-- R93 and R95. -/
def Obligations.BitwiseAndComparisonWords : Prop :=
  ∀ d s : Reg,
    encode (.bitFalse d s) = BitVec.ofNat 16 (0x1000 + 16 * s.val + d.val) ∧
    encode (.bitNor d s) = BitVec.ofNat 16 (0x1100 + 16 * s.val + d.val) ∧
    encode (.bitNcimpl d s) = BitVec.ofNat 16 (0x1200 + 16 * s.val + d.val) ∧
    encode (.bitNotd d s) = BitVec.ofNat 16 (0x1300 + 16 * s.val + d.val) ∧
    encode (.bitNimpl d s) = BitVec.ofNat 16 (0x1400 + 16 * s.val + d.val) ∧
    encode (.bitNots d s) = BitVec.ofNat 16 (0x1500 + 16 * s.val + d.val) ∧
    encode (.bitXor d s) = BitVec.ofNat 16 (0x1600 + 16 * s.val + d.val) ∧
    encode (.bitNand d s) = BitVec.ofNat 16 (0x1700 + 16 * s.val + d.val) ∧
    encode (.bitAnd d s) = BitVec.ofNat 16 (0x1800 + 16 * s.val + d.val) ∧
    encode (.bitXnor d s) = BitVec.ofNat 16 (0x1900 + 16 * s.val + d.val) ∧
    encode (.bitS d s) = BitVec.ofNat 16 (0x1A00 + 16 * s.val + d.val) ∧
    encode (.bitImpl d s) = BitVec.ofNat 16 (0x1B00 + 16 * s.val + d.val) ∧
    encode (.bitD d s) = BitVec.ofNat 16 (0x1C00 + 16 * s.val + d.val) ∧
    encode (.bitCimpl d s) = BitVec.ofNat 16 (0x1D00 + 16 * s.val + d.val) ∧
    encode (.bitOr d s) = BitVec.ofNat 16 (0x1E00 + 16 * s.val + d.val) ∧
    encode (.bitTrue d s) = BitVec.ofNat 16 (0x1F00 + 16 * s.val + d.val) ∧
    encode (.cmp d s) = BitVec.ofNat 16 (0x3000 + 16 * s.val + d.val) ∧
    encode (.cmpE d s) = BitVec.ofNat 16 (0x3100 + 16 * s.val + d.val) ∧
    encode (.cmpG d s) = BitVec.ofNat 16 (0x3200 + 16 * s.val + d.val) ∧
    encode (.cmpEG d s) = BitVec.ofNat 16 (0x3300 + 16 * s.val + d.val) ∧
    encode (.cmpS d s) = BitVec.ofNat 16 (0x3400 + 16 * s.val + d.val) ∧
    encode (.cmpES d s) = BitVec.ofNat 16 (0x3500 + 16 * s.val + d.val) ∧
    encode (.cmpGS d s) = BitVec.ofNat 16 (0x3600 + 16 * s.val + d.val) ∧
    encode (.cmpEGS d s) = BitVec.ofNat 16 (0x3700 + 16 * s.val + d.val) ∧
    encode (.cmpI d s) = BitVec.ofNat 16 (0x3800 + 16 * s.val + d.val) ∧
    encode (.cmpEI d s) = BitVec.ofNat 16 (0x3900 + 16 * s.val + d.val) ∧
    encode (.cmpGI d s) = BitVec.ofNat 16 (0x3A00 + 16 * s.val + d.val) ∧
    encode (.cmpEGI d s) = BitVec.ofNat 16 (0x3B00 + 16 * s.val + d.val) ∧
    encode (.cmpSI d s) = BitVec.ofNat 16 (0x3C00 + 16 * s.val + d.val) ∧
    encode (.cmpESI d s) = BitVec.ofNat 16 (0x3D00 + 16 * s.val + d.val) ∧
    encode (.cmpGSI d s) = BitVec.ofNat 16 (0x3E00 + 16 * s.val + d.val) ∧
    encode (.cmpEGSI d s) = BitVec.ofNat 16 (0x3F00 + 16 * s.val + d.val)

/-- R94. -/
def Obligations.ArithmeticWords : Prop :=
  ∀ (d s : Reg) (n : Nat), n < 16 →
    encode (.add d s) = BitVec.ofNat 16 (0x2000 + 16 * s.val + d.val) ∧
    encode (.sub d s) = BitVec.ofNat 16 (0x2100 + 16 * s.val + d.val) ∧
    encode (.shl d s) = BitVec.ofNat 16 (0x2200 + 16 * s.val + d.val) ∧
    encode (.shr d s) = BitVec.ofNat 16 (0x2300 + 16 * s.val + d.val) ∧
    encode (.asr d s) = BitVec.ofNat 16 (0x2400 + 16 * s.val + d.val) ∧
    encode (.mul d s) = BitVec.ofNat 16 (0x2500 + 16 * s.val + d.val) ∧
    encode (.div d s) = BitVec.ofNat 16 (0x2600 + 16 * s.val + d.val) ∧
    encode (.mod d s) = BitVec.ofNat 16 (0x2700 + 16 * s.val + d.val) ∧
    encode (.addImm d n) = BitVec.ofNat 16 (0x2800 + 16 * n + d.val) ∧
    encode (.subImm d n) = BitVec.ofNat 16 (0x2900 + 16 * n + d.val) ∧
    encode (.shlImm d n) = BitVec.ofNat 16 (0x2A00 + 16 * n + d.val) ∧
    encode (.shrImm d n) = BitVec.ofNat 16 (0x2B00 + 16 * n + d.val) ∧
    encode (.asrImm d n) = BitVec.ofNat 16 (0x2C00 + 16 * n + d.val) ∧
    encode (.mulImm d n) = BitVec.ofNat 16 (0x2D00 + 16 * n + d.val) ∧
    encode (.divImm d n) = BitVec.ofNat 16 (0x2E00 + 16 * n + d.val) ∧
    encode (.modImm d n) = BitVec.ofNat 16 (0x2F00 + 16 * n + d.val)

/-- R96 to R101, with the mode numbers of R246; that an assembler writes the reserved bits of JAL as 0 is the spec's own choice D12 (R104, log 10), the two's complement of a negative offset D31 (log 9). -/
def Obligations.OtherFormatWords : Prop :=
  (∀ (c : Reg) (off : Int), -128 ≤ off → off ≤ 127 →
      encode (.jc c off) = BitVec.ofNat 16 (0x8000 + 256 * c.val + (off % 256).toNat)) ∧
    (∀ l p : Reg, encode (.jal l p) = BitVec.ofNat 16 (0x9000 + 16 * p.val + l.val)) ∧
    (∀ (d : Reg) (bi b : Nat), bi < 16 → b < 8 →
      encode (.subword d bi b) = BitVec.ofNat 16 (0x9800 + 256 * b + 16 * bi + d.val)) ∧
    (∀ (r : Reg) (n : Nat), n < 256 →
      encode (.srr r n) = BitVec.ofNat 16 (0xA000 + 256 * r.val + n) ∧
      encode (.srw n r) = BitVec.ofNat 16 (0xB000 + 256 * r.val + n)) ∧
    (∀ (d : Reg) (imm : Nat), imm < 256 → encode (.si d imm) = BitVec.ofNat 16 (0xC000 + 16 * imm + d.val)) ∧
    ∀ dst src : Operand, encode (.xf dst src) = BitVec.ofNat 16
      (0x4000 + 8192 * src.indirect.toNat + 2048 * Mode.number src.mode + 1024 * dst.indirect.toNat +
        256 * Mode.number dst.mode + 16 * src.reg.val + dst.reg.val)

/-- The step of 00_scope.md R11. That x[0] advances before execution (D1, log 7), that it wraps (D3, log 8), that one byte order holds for the fetch (D5, log 18) and that SR 4 counts after the instruction and wraps (D23, D24, log 14) are the spec's own choices. -/
def Obligations.StepRunsDecodedInstruction : Prop :=
  ∀ (s : State) (iw : BitVec 16) (i : Instr), s.halted = false → s.x Reg.pc % 2 = 0 →
    (∀ k, k < 2 → isMapped s.cfg ((s.x Reg.pc + k) % 2 ^ s.W) = true) →
    Memory.getAll s.mem (addresses s.pc 2) = some (bytesOf s.cfg.byteOrder 2 iw) →
    decodeWord iw = i → WellFormed i →
    step s = finishStep (exec i s.advancePc) ∧
    OnlyReg Reg.pc ((s.x Reg.pc + 2) % 2 ^ s.W) s s.advancePc ∧
    ∀ t : State, finishStep (.next t) = .next t.retire ∧
      t.retire.retired.toNat = (t.retired.toNat + 1) % 2 ^ t.W ∧
      t.retire = { t with retired := t.retire.retired }

/-- 60_exceptions.md R285, the spec's own choice D27; that a step then answers the same state is the model's reading of "takes no further step" (log 15). -/
def Obligations.HaltedCoreTakesNoStep : Prop :=
  ∀ s : State, s.halted = true → step s = .next s

/-- R63, R65, R275; the stops are the spec's own choices D6 and D7 (log 10), the wrap of addresses D3 (log 8); UninitRead for memory is the model's choice of treatment (a) of R300 (D30, log 4). What an Unmapped (log 10) and an UninitRead of memory (log 4) record, the first address of the access, is the model's choice. -/
def Obligations.FetchStops : Prop :=
  ∀ s : State, s.halted = false →
    (s.x Reg.pc % 2 = 1 → step s = .fault (.misaligned .fetch (s.x Reg.pc))) ∧
    (s.x Reg.pc % 2 = 0 → (∃ k, k < 2 ∧ isMapped s.cfg ((s.x Reg.pc + k) % 2 ^ s.W) = false) →
      step s = .fault (.unmapped .fetch (s.x Reg.pc))) ∧
    (s.x Reg.pc % 2 = 0 → (∀ k, k < 2 → isMapped s.cfg ((s.x Reg.pc + k) % 2 ^ s.W) = true) →
      (∃ k, k < 2 ∧ Memory.get s.mem ((s.x Reg.pc + k) % 2 ^ s.W) = none) →
      step s = .fault (.uninitRead .fetch (s.x Reg.pc)))

/-- 10_state.md R24; the wrap at the top is the spec's own choice D3 (log 8). -/
def Obligations.PcAdvancesUnlessWritten : Prop :=
  ∀ (s t : State) (iw : BitVec 16), s.halted = false → fetchInsn s = .ok iw → step s = .next t →
    Reg.pc ∉ writtenRegs (decodeWord iw) → t.x Reg.pc = (s.x Reg.pc + 2) % 2 ^ s.W

/-- 10_state.md R34 and R216; the order and the wrap are the spec's own choices D23, D24 (log 14), what SRW of R0 writes D1 (log 7). -/
def Obligations.StepCountsInstruction : Prop :=
  ∀ (s t : State) (iw : BitVec 16), s.halted = false → fetchInsn s = .ok iw → step s = .next t →
    ((∀ r, decodeWord iw ≠ .srw 4 r) → t.retired.toNat = (s.retired.toNat + 1) % 2 ^ s.W) ∧
    ∀ r, decodeWord iw = .srw 4 r → t.retired.toNat = (s.advancePc.x r + 1) % 2 ^ s.W

/-- 10_state.md R33 and R42, R216, R285; halt is the spec's own choice D27 (log 15), what SRW of R0 reads D1 (log 7). -/
def Obligations.CoreHaltsOnlyByWritingSr3 : Prop :=
  ∀ s t : State, s.halted = false → step s = .next t → t.halted = true →
    ∃ iw r, fetchInsn s = .ok iw ∧ decodeWord iw = .srw 3 r ∧ s.advancePc.x r = 1

/-- R120; that the table is indexed from its least significant bit the spec derives there from the sixteen names. decodeBit names the instructions by truth-table number. -/
def Obligations.BitwiseAppliesTruthTable : Prop :=
  ∀ (tt : Fin 16) (d s : Reg) (st : State), Completes (decodeBit tt.val d s) st fun t =>
    (∀ i, i < st.W → (t.reg d).getLsbD i =
      tt.val.testBit (2 * ((st.reg d).getLsbD i).toNat + ((st.reg s).getLsbD i).toNat)) ∧
    SameRegsBut [d] st t ∧ SameSystem st t ∧ SameMemory st t

/-- R121 to R128; the spec marks the closed forms as derived from R120. -/
def Obligations.BitwiseFalseToNand : Prop :=
  ∀ (d s : Reg) (st : State),
    Sets (.bitFalse d s) d 0 st ∧
    Sets (.bitNor d s) d (~~~(st.reg d ||| st.reg s)).toNat st ∧
    Sets (.bitNcimpl d s) d (~~~(st.reg d) &&& st.reg s).toNat st ∧
    Sets (.bitNotd d s) d (~~~(st.reg d)).toNat st ∧
    Sets (.bitNimpl d s) d (st.reg d &&& ~~~(st.reg s)).toNat st ∧
    Sets (.bitNots d s) d (~~~(st.reg s)).toNat st ∧
    Sets (.bitXor d s) d (st.reg d ^^^ st.reg s).toNat st ∧
    Sets (.bitNand d s) d (~~~(st.reg d &&& st.reg s)).toNat st

/-- R129 to R136; the spec marks the closed forms as derived from R120. -/
def Obligations.BitwiseAndToTrue : Prop :=
  ∀ (d s : Reg) (st : State),
    Sets (.bitAnd d s) d (st.reg d &&& st.reg s).toNat st ∧
    Sets (.bitXnor d s) d (~~~(st.reg d ^^^ st.reg s)).toNat st ∧
    Sets (.bitS d s) d (st.x s) st ∧
    Sets (.bitImpl d s) d (~~~(st.reg d) ||| st.reg s).toNat st ∧
    Sets (.bitD d s) d (st.x d) st ∧
    Sets (.bitCimpl d s) d (st.reg d ||| ~~~(st.reg s)).toNat st ∧
    Sets (.bitOr d s) d (st.reg d ||| st.reg s).toNat st ∧
    Sets (.bitTrue d s) d (2 ^ st.W - 1) st

/-- R141, R142; that overflow wraps is the spec's own choice D14 (log 9). -/
def Obligations.AddAndSubtract : Prop :=
  ∀ (d s : Reg) (st : State),
    Sets (.add d s) d ((st.x d + st.x s) % 2 ^ st.W) st ∧
    Sets (.sub d s) d (if st.x s ≤ st.x d then st.x d - st.x s else st.x d + 2 ^ st.W - st.x s) st

/-- R143 to R145; counts of W or more are the spec's own choice D15, two's complement D31 (log 9). -/
def Obligations.ShiftsByRegister : Prop :=
  ∀ (d s : Reg) (st : State),
    Sets (.shl d s) d (if st.W ≤ st.x s then 0 else st.x d * 2 ^ st.x s % 2 ^ st.W) st ∧
    Sets (.shr d s) d (if st.W ≤ st.x s then 0 else st.x d / 2 ^ st.x s) st ∧
    Sets (.asr d s) d
      (((st.reg d).toInt / (2 : Int) ^ (min (st.x s) (st.W - 1))) % (2 : Int) ^ st.W).toNat st

/-- R146 to R148; the wrap is D14 and unsigned division D16, the spec's own choices (log 9). -/
def Obligations.MultiplyDivideModulo : Prop :=
  ∀ (d s : Reg) (st : State), st.cfg.hasMul = true →
    Sets (.mul d s) d (st.x d * st.x s % 2 ^ st.W) st ∧
    (st.x s ≠ 0 → Sets (.div d s) d (st.x d / st.x s) st ∧ Sets (.mod d s) d (st.x d % st.x s) st)

/-- R149 to R153; the wrap is D14 and two's complement D31, the spec's own choices (log 9). -/
def Obligations.LiteralAddSubtractShift : Prop :=
  ∀ (d : Reg) (n : Nat) (st : State), n < 16 →
    Sets (.addImm d n) d ((st.x d + n) % 2 ^ st.W) st ∧
    Sets (.subImm d n) d (if n ≤ st.x d then st.x d - n else st.x d + 2 ^ st.W - n) st ∧
    Sets (.shlImm d n) d (st.x d * 2 ^ n % 2 ^ st.W) st ∧
    Sets (.shrImm d n) d (st.x d / 2 ^ n) st ∧
    Sets (.asrImm d n) d (((st.reg d).toInt / (2 : Int) ^ n) % (2 : Int) ^ st.W).toNat st

/-- R154 to R156; D14 and D16 are the spec's own choices (log 9). -/
def Obligations.LiteralMultiplyDivideModulo : Prop :=
  ∀ (d : Reg) (n : Nat) (st : State), st.cfg.hasMul = true → n < 16 →
    Sets (.mulImm d n) d (st.x d * n % 2 ^ st.W) st ∧
    (n ≠ 0 → Sets (.divImm d n) d (st.x d / n) st ∧ Sets (.modImm d n) d (st.x d % n) st)

/-- R161, the stop is the spec's own choice D18 (log 10). -/
def Obligations.NoMultiplierStops : Prop :=
  ∀ (d s : Reg) (n : Nat) (st : State), st.cfg.hasMul = false →
    StopsWith (.mul d s) st (.noMultiplier (encode (.mul d s))) ∧
    StopsWith (.div d s) st (.noMultiplier (encode (.div d s))) ∧
    StopsWith (.mod d s) st (.noMultiplier (encode (.mod d s))) ∧
    StopsWith (.mulImm d n) st (.noMultiplier (encode (.mulImm d n))) ∧
    StopsWith (.divImm d n) st (.noMultiplier (encode (.divImm d n))) ∧
    StopsWith (.modImm d n) st (.noMultiplier (encode (.modImm d n)))

/-- R160, the stop is the spec's own choice D17 (log 10). -/
def Obligations.DivideByZeroStops : Prop :=
  ∀ (d s : Reg) (st : State), st.cfg.hasMul = true →
    (st.x s = 0 → StopsWith (.div d s) st (.divideByZero (encode (.div d s))) ∧
      StopsWith (.mod d s) st (.divideByZero (encode (.mod d s)))) ∧
    StopsWith (.divImm d 0) st (.divideByZero (encode (.divImm d 0))) ∧
    StopsWith (.modImm d 0) st (.divideByZero (encode (.modImm d 0)))

/-- "Same law as rule R141 with s = n" and so on (R149 to R156). -/
def Obligations.LiteralFormsAgreeWithRegisterForms : Prop :=
  ∀ (d r : Reg) (n : Nat) (st : State), n < 16 → st.x r = n →
    exec (.addImm d n) st = exec (.add d r) st ∧
    exec (.subImm d n) st = exec (.sub d r) st ∧
    exec (.shlImm d n) st = exec (.shl d r) st ∧
    exec (.shrImm d n) st = exec (.shr d r) st ∧
    exec (.asrImm d n) st = exec (.asr d r) st ∧
    (st.cfg.hasMul = true → exec (.mulImm d n) st = exec (.mul d r) st ∧
      (n ≠ 0 → exec (.divImm d n) st = exec (.div d r) st ∧ exec (.modImm d n) st = exec (.mod d r) st))

/-- R170 as the source states it, with the signed order of R188; two's complement is the spec's own choice D31 (log 11). That the nonzero value is exactly 1 is D21, stated in the two statements after this one. decodeCmp names the sixteen instructions by F. -/
def Obligations.ComparisonWritesFinalTest : Prop :=
  ∀ (f : Fin 16) (d s : Reg) (st : State) (internal final : Prop),
    (internal ↔ (f.val.testBit 0 = true ∧ st.x d = st.x s) ∨
      (f.val.testBit 1 = true ∧
        if f.val.testBit 2 = true then (st.reg d).toInt > (st.reg s).toInt else st.x d > st.x s)) →
    (final ↔ if f.val.testBit 3 = true then ¬ internal else internal) →
    Completes (decodeCmp f.val d s) st fun t =>
      (final → t.x d ≠ 0) ∧ (¬ final → t.x d = 0) ∧ SameRegsBut [d] st t ∧ SameSystem st t ∧ SameMemory st t

/-- R172 to R177 and R180 to R185; the value 1 is the spec's own choice D21 (log 11). -/
def Obligations.UnsignedComparisons : Prop :=
  ∀ (d s : Reg) (st : State),
    Sets (.cmp d s) d 0 st ∧
    Sets (.cmpE d s) d (if st.x d = st.x s then 1 else 0) st ∧
    Sets (.cmpG d s) d (if st.x d > st.x s then 1 else 0) st ∧
    Sets (.cmpEG d s) d (if st.x d ≥ st.x s then 1 else 0) st ∧
    Sets (.cmpS d s) d 0 st ∧
    Sets (.cmpES d s) d (if st.x d = st.x s then 1 else 0) st ∧
    Sets (.cmpI d s) d 1 st ∧
    Sets (.cmpEI d s) d (if st.x d ≠ st.x s then 1 else 0) st ∧
    Sets (.cmpGI d s) d (if st.x d ≤ st.x s then 1 else 0) st ∧
    Sets (.cmpEGI d s) d (if st.x d < st.x s then 1 else 0) st ∧
    Sets (.cmpSI d s) d 1 st ∧
    Sets (.cmpESI d s) d (if st.x d ≠ st.x s then 1 else 0) st

/-- R178, R179, R186, R187 with 90_conflicts.md C6; D21 and D31 are the spec's own choices (log 11). -/
def Obligations.SignedComparisons : Prop :=
  ∀ (d s : Reg) (st : State),
    Sets (.cmpGS d s) d (if (st.reg d).toInt > (st.reg s).toInt then 1 else 0) st ∧
    Sets (.cmpEGS d s) d (if (st.reg d).toInt ≥ (st.reg s).toInt then 1 else 0) st ∧
    Sets (.cmpGSI d s) d (if (st.reg d).toInt ≤ (st.reg s).toInt then 1 else 0) st ∧
    Sets (.cmpEGSI d s) d (if (st.reg d).toInt < (st.reg s).toInt then 1 else 0) st

/-- R188, marked derived there; two's complement is the spec's own choice D31 (log 11). -/
def Obligations.SignedOrderByFlippedSignBit : Prop :=
  ∀ (w : WordSize) (d s : Word w),
    greater true d s = greater false (d ^^^ BitVec.ofNat w.bits (2 ^ (w.bits - 1))) (s ^^^ BitVec.ofNat w.bits (2 ^ (w.bits - 1)))

/-- R200; what x[0] holds and the wrap are the spec's own choices D1 and D3 (log 7, log 8). -/
def Obligations.ConditionalBranches : Prop :=
  ∀ (c : Reg) (off : Int) (s : State), -128 ≤ off → off ≤ 127 →
    Sets (.jc c off) Reg.pc
      (if s.x c ≠ 0 then (((s.x Reg.pc : Int) + 2 * off) % (2 : Int) ^ s.W).toNat else s.x Reg.pc) s

/-- R205; the order for L = P is the spec's own choice D19 (log 12), what x[0] holds D1 (log 7). -/
def Obligations.JumpAndLink : Prop :=
  ∀ (l p : Reg) (s : State), Completes (.jal l p) s fun t =>
    t.x Reg.pc = (if p = l then s.x Reg.pc else s.x p) ∧ (l ≠ Reg.pc → t.x l = s.x Reg.pc) ∧
    SameRegsBut [l, Reg.pc] s t ∧ SameSystem s t ∧ SameMemory s t

/-- R206, R104: "Executing a word 0x9100 to 0x97FF ... stops the model with raise Unspecified(ReservedBits) before any register is written"; the stop is the spec's own choice D12 (log 10). -/
def Obligations.ReservedJalWordsStop : Prop :=
  (∀ (w : BitVec 16) (s : State), 0x9100 ≤ w.toNat → w.toNat ≤ 0x97FF → StopsWith (decodeWord w) s (.reservedBits w)) ∧
    (∀ (low : BitVec 10) (s : State), StopsWith (.jalReservedBit10 low) s (.reservedBits (encode (.jalReservedBit10 low)))) ∧
    (∀ (low : BitVec 9) (s : State), StopsWith (.jalReservedBit9 low) s (.reservedBits (encode (.jalReservedBit9 low)))) ∧
    ∀ (low : BitVec 8) (s : State), StopsWith (.jalReservedBit8 low) s (.reservedBits (encode (.jalReservedBit8 low)))

/-- R103: "executing such a word stops the model with raise Unspecified(ReservedOpcode)"; the stop is the spec's own choice D11 (log 10). -/
def Obligations.UnassignedWordsStop : Prop :=
  (∀ (w : BitVec 16) (s : State), w.toNat < 0x1000 ∨ 0xD000 ≤ w.toNat → StopsWith (decodeWord w) s (.reservedOpcode w)) ∧
    ∀ (low : BitVec 12) (s : State),
      StopsWith (.unassigned0 low) s (.reservedOpcode (encode (.unassigned0 low))) ∧
      StopsWith (.unassignedD low) s (.reservedOpcode (encode (.unassignedD low))) ∧
      StopsWith (.unassignedE low) s (.reservedOpcode (encode (.unassignedE low))) ∧
      StopsWith (.unassignedF low) s (.reservedOpcode (encode (.unassignedF low)))

/-- R210; that bytes above the register are 0 (8*Bi >= W, Bi+k >= WB) the spec infers from R211 and R158, the spec's own choice D15 (R210 (b), log 9). -/
def Obligations.SubwordSelectsBytes : Prop :=
  ∀ (d : Reg) (bi b : Nat) (s : State), bi < 16 → b < 8 →
    Sets (.subword d bi b) d
      (if 8 * bi ≥ s.W then 0 else s.x d / 2 ^ (8 * bi) % 2 ^ (8 * (if b = 0 then 8 else b))) s ∧
    Completes (.subword d bi b) s fun t => ∀ k, byteOf (t.reg d) k =
      if k < (if b = 0 then 8 else b) ∧ bi + k < s.WB then byteOf (s.reg d) (bi + k) else 0#8

/-- R211; it rests on shifts by W or more giving 0 and on the mask's subtraction wrapping, the spec's own choices D15 and D14 (log 9). -/
def Obligations.SubwordEqualsItsListing : Prop :=
  ∀ (d : Reg) (bi b : Nat) (s : State), bi < 16 → b < 8 →
    Sets (.subword d bi b) d
      (shiftRight (s.reg d &&& shiftLeft
          (shiftLeft (literal s.cfg.width 1) (literal s.cfg.width (8 * (if b = 0 then 8 else b))) - literal s.cfg.width 1)
          (literal s.cfg.width (8 * bi)))
        (literal s.cfg.width (8 * bi))).toNat s

/-- R240. -/
def Obligations.SmallImmediateLoads : Prop :=
  ∀ (d : Reg) (imm : Nat) (s : State), imm < 256 → Sets (.si d imm) d imm s

/-- R215 with R30, R31, R36; that SR 0, 1 and 6 read constants of the configuration is the spec's own choice D32 (log 16), their width D23 (log 14); MODEL_ID and CORE_FREQ_KIHZ are free in the statement. -/
def Obligations.SrrReadsConstants : Prop :=
  ∀ (r : Reg) (s : State),
    Sets (.srr r 0) r s.cfg.modelId.toNat s ∧ Sets (.srr r 1) r s.W s ∧
    Sets (.srr r 6) r s.cfg.coreFreqKiHz.toNat s

/-- R215 with R32, R34, R37; that SR 2 is storage is the spec's own choice D28 (log 17), when SR 4 counts D24 and the width of both D23 (log 14), the reserved bits of SR 7 D32 (log 16). -/
def Obligations.SrrReadsStoredRegisters : Prop :=
  ∀ (r : Reg) (s : State),
    Sets (.srr r 2) r s.ivt.toNat s ∧ Sets (.srr r 4) r s.retired.toNat s ∧
    Sets (.srr r 7) r (if s.cfg.hasMul = true then 1 else 0) s

/-- R35, R215, the spec's own choice D25 (log 6), the width D23 (log 14); the counter of draws is the model's own field (log 6). -/
def Obligations.SrrCyclesIsADraw : Prop :=
  ∀ (r : Reg) (s : State), exec (.srr r 5) s =
    .next { s with
      regs := RegFile.write s.regs r ((Config.cycleDraw s.draws).setWidth s.cfg.width.bits),
      draws := s.draws + 1 }

/-- R216 with R32 to R35, R38, R42, R285; that SR 2 is storage is the spec's own choice D28 (log 17), that nothing observes the stored SR 5 D25 (log 6), the byte of SR 10 D26 and halt D27 (log 15), the width of the registers D23 (log 14). -/
def Obligations.SrwEffects : Prop :=
  ∀ (r : Reg) (s : State),
    exec (.srw 2 r) s = .next { s with ivt := s.reg r } ∧
    exec (.srw 4 r) s = .next { s with retired := s.reg r } ∧
    exec (.srw 5 r) s = .next { s with cycles := s.reg r } ∧
    exec (.srw 10 r) s = .next { s with out := s.out ++ [BitVec.ofNat 8 (s.x r)] } ∧
    (s.x r = 0 → exec (.srw 3 r) s = .next s) ∧
    (s.x r = 1 → exec (.srw 3 r) s = .next { s with halted := true })

/-- R217, R218 with R39, R40; the stop is the spec's own choice D22 (log 10). -/
def Obligations.SrAccessStops : Prop :=
  ∀ (r : Reg) (n : Nat) (s : State),
    (n ∉ [0, 1, 2, 4, 5, 6, 7] → StopsWith (.srr r n) s (.srAccess (encode (.srr r n)))) ∧
    (n ∉ [2, 3, 4, 5, 10] → StopsWith (.srw n r) s (.srAccess (encode (.srw n r))))

/-- R216, R33; the stop is the spec's own choice D27 (log 10). -/
def Obligations.Sr3ReservedBitsStop : Prop :=
  ∀ (r : Reg) (s : State), 2 ≤ s.x r → StopsWith (.srw 3 r) s (.sr3ReservedBits (s.x r))

/-- R245 to R248; the order of the sub-steps is the spec's own choice D20 (log 13), the wrap D3 (log 8), the byte order D5 (log 18). The premise Supplies is what D6 and D7 (log 10) and the model's log 4 ask of a load. -/
def Obligations.TransferToRegister : Prop :=
  ∀ (dst src : Operand) (s : State) (v : Word s.cfg.width), dst.indirect = false → Supplies s src v →
    Completes (.xf dst src) s fun t =>
      (∀ j, t.x j = (if j = dst.reg then Mode.after dst.mode v else afterSource s src j).toNat) ∧
      SameSystem s t ∧ SameMemory s t

/-- R245 to R248, R60; the order of the sub-steps is the spec's own choice D20 (log 13), the wrap D3 (log 8), the byte order D5 (log 18). The premises Supplies and Accessible are what D6 and D7 (log 10) and the model's log 4 ask of the accesses. -/
def Obligations.TransferToMemory : Prop :=
  ∀ (dst src : Operand) (s : State) (v : Word s.cfg.width), dst.indirect = true → Supplies s src v →
    Accessible s (storeValue s dst src) →
    Completes (.xf dst src) s fun t =>
      (∀ j, t.x j = (if j = dst.reg then Mode.after dst.mode (storeValue s dst src) else afterSource s src j).toNat) ∧
      Memory.getAll t.mem (addresses (storeValue s dst src) s.WB) = some (bytesOf s.cfg.byteOrder s.WB v) ∧
      (∀ a, a ∉ addresses (storeValue s dst src) s.WB → Memory.get t.mem a = Memory.get s.mem a) ∧
      SameSystem s t

/-- R63, R65, R275; the stops are the spec's own choices D6 and D7 (log 10), the address of each access D20 (log 13) and D3 (log 8); UninitRead for memory is the model's choice of treatment (a) of R300 (D30, log 4). What an Unmapped (log 10) and an UninitRead of memory (log 4) record, the first address of the access, is the model's choice. -/
def Obligations.TransferStops : Prop :=
  ∀ (dst src : Operand) (s : State),
    (src.indirect = true →
      ((accessValue s src).toNat % s.WB ≠ 0 →
        StopsWith (.xf dst src) s (.misaligned .load (accessValue s src).toNat)) ∧
      ((accessValue s src).toNat % s.WB = 0 →
        (∃ k, k < s.WB ∧ isMapped s.cfg (((accessValue s src).toNat + k) % 2 ^ s.W) = false) →
        StopsWith (.xf dst src) s (.unmapped .load (accessValue s src).toNat)) ∧
      (Accessible s (accessValue s src) →
        (∃ k, k < s.WB ∧ Memory.get s.mem (((accessValue s src).toNat + k) % 2 ^ s.W) = none) →
        StopsWith (.xf dst src) s (.uninitRead .load (accessValue s src).toNat))) ∧
    ∀ v, Supplies s src v → dst.indirect = true →
      ((storeValue s dst src).toNat % s.WB ≠ 0 →
        StopsWith (.xf dst src) s (.misaligned .store (storeValue s dst src).toNat)) ∧
      ((storeValue s dst src).toNat % s.WB = 0 →
        (∃ k, k < s.WB ∧ isMapped s.cfg (((storeValue s dst src).toNat + k) % 2 ^ s.W) = false) →
        StopsWith (.xf dst src) s (.unmapped .store (storeValue s dst src).toNat))

/-- R246, R247, R248; the wrap is the spec's own choice D3 (log 8), when each mode acts D20 (log 13). -/
def Obligations.ModesStepByWordSize : Prop :=
  ∀ (w : WordSize) (v : Word w),
    Mode.before .keep v = v ∧ Mode.after .keep v = v ∧
    Mode.before .postInc v = v ∧ (Mode.after .postInc v).toNat = (v.toNat + w.bytes) % 2 ^ w.bits ∧
    (Mode.before .preDec v).toNat = (v.toNat + (2 ^ w.bits - w.bytes)) % 2 ^ w.bits ∧ Mode.after .preDec v = v ∧
    Mode.before .postDec v = v ∧ (Mode.after .postDec v).toNat = (v.toNat + (2 ^ w.bits - w.bytes)) % 2 ^ w.bits

/-- R249, marked derived there; the order of the sub-steps is the spec's own choice D20 (log 13), the wrap D3 (log 8). -/
def Obligations.TransferWithinOneRegister : Prop :=
  ∀ (n : Reg) (s : State),
    Sets (.xf ⟨false, .keep, n⟩ ⟨false, .keep, n⟩) n (s.x n) s ∧
    Sets (.xf ⟨false, .postInc, n⟩ ⟨false, .keep, n⟩) n ((s.x n + s.WB) % 2 ^ s.W) s ∧
    Sets (.xf ⟨false, .postDec, n⟩ ⟨false, .keep, n⟩) n ((s.x n + (2 ^ s.W - s.WB)) % 2 ^ s.W) s ∧
    Sets (.xf ⟨false, .preDec, n⟩ ⟨false, .keep, n⟩) n (s.x n) s ∧
    Sets (.xf ⟨false, .keep, n⟩ ⟨false, .preDec, n⟩) n ((s.x n + (2 ^ s.W - s.WB)) % 2 ^ s.W) s ∧
    Sets (.xf ⟨false, .keep, n⟩ ⟨false, .postInc, n⟩) n (s.x n) s ∧
    Sets (.xf ⟨false, .keep, n⟩ ⟨false, .postDec, n⟩) n (s.x n) s ∧
    Sets (.xf ⟨false, .postInc, n⟩ ⟨false, .postInc, n⟩) n ((s.x n + s.WB) % 2 ^ s.W) s

/-- R251, the stack idioms attested by the source, with R245; the order of the sub-steps is the spec's own choice D20 (log 13), the wrap D3 and that the load sees the store D9 (log 8). The premise Accessible is what D6 and D7 (log 10) ask of the store. -/
def Obligations.PushThenPop : Prop :=
  ∀ (sp q r : Reg) (s : State), q ≠ sp → Accessible s (s.reg sp - Word.step s.cfg.width) →
    ∃ t u, exec (.xf ⟨true, .preDec, sp⟩ ⟨false, .keep, r⟩) s = .next t ∧
      exec (.xf ⟨false, .keep, q⟩ ⟨true, .postInc, sp⟩) t = .next u ∧
      t.x sp = (s.x sp + (2 ^ s.W - s.WB)) % 2 ^ s.W ∧ u.x q = s.x r ∧ u.x sp = s.x sp

/-- R62; that one byte order, an argument of the model, holds for data and fetch alike is the spec's own choice D5 (log 18); it is free in the statement. The last clause is about the configuration field (log 1). -/
def Obligations.WordsLieInByteOrder : Prop :=
  (∀ (c : Config) (m : Memory) (a : Word c.width) (n : Nat) (v : BitVec (8 * n)) (k : Nat),
      n = 2 ∨ n = c.width.bytes → k < n →
      (∀ m', memWrite c m a n v = .ok m' → Memory.get m' ((a.toNat + k) % 2 ^ c.width.bits) =
        some (if c.byteOrder = .little then byteOf v k else byteOf v (n - 1 - k))) ∧
      ∀ kind, memRead c m kind a n = .ok v → Memory.get m ((a.toNat + k) % 2 ^ c.width.bits) =
        some (if c.byteOrder = .little then byteOf v k else byteOf v (n - 1 - k))) ∧
    ∀ (i : Instr) (s t : State), exec i s = .next t → t.cfg.byteOrder = s.cfg.byteOrder

/-- R68, the spec's own choice D9 (log 8). -/
def Obligations.StoredWordLoadsBack : Prop :=
  ∀ (c : Config) (m m' : Memory) (a v : Word c.width), storeWord c m a v = .ok m' →
    loadWord c m' a = .ok v ∧
    ∀ b, b ∉ addresses a c.width.bytes → Memory.get m' b = Memory.get m b

/-- R75 and R71; fetch coherence is the spec's own choice D10 (log 8), one byte order for data and fetch D5 (log 18). -/
def Obligations.FetchSeesStoredWord : Prop :=
  ∀ (c : Config) (m m' : Memory) (a v : Word c.width), storeWord c m a v = .ok m' →
    memRead c m' .fetch a 2 =
      .ok (if c.byteOrder = .little then v.setWidth 16 else (v >>> (c.width.bits - 16)).setWidth 16)

/-- R63, R65, R275; the stops are the spec's own choices D6 and D7 (log 10); UninitRead for memory is the model's choice of treatment (a) of R300 (D30, log 4). What an Unmapped (log 10) and an UninitRead of memory (log 4) record, the first address of the access, is the model's choice. -/
def Obligations.DataAccessStops : Prop :=
  ∀ (c : Config) (m : Memory) (a v : Word c.width),
    (a.toNat % c.width.bytes ≠ 0 →
      loadWord c m a = .error (.misaligned .load a.toNat) ∧
      storeWord c m a v = .error (.misaligned .store a.toNat)) ∧
    (a.toNat % c.width.bytes = 0 →
      (∃ k, k < c.width.bytes ∧ isMapped c ((a.toNat + k) % 2 ^ c.width.bits) = false) →
      loadWord c m a = .error (.unmapped .load a.toNat) ∧
      storeWord c m a v = .error (.unmapped .store a.toNat)) ∧
    (a.toNat % c.width.bytes = 0 →
      (∀ k, k < c.width.bytes → isMapped c ((a.toNat + k) % 2 ^ c.width.bits) = true) →
      (∃ m', storeWord c m a v = .ok m') ∧
      ((∃ u, loadWord c m a = .ok u) ∨ loadWord c m a = .error (.uninitRead .load a.toNat)))

/-- The frame of every instruction, from the pseudocode of R120, R140, R170, R200, R205, R210, R215, R216, R240 and R245. -/
def Obligations.RegistersChangeOnlyAsNamed : Prop :=
  ∀ (i : Instr) (s t : State) (j : Reg), exec i s = .next t → j ∉ writtenRegs i → t.x j = s.x j

/-- R29 and R41: only SRR and SRW reach the System Registers, only XF reaches data memory. The clause on the configuration is about the model's own field (log 1) and the clause on draws about the model's own counter (log 6, D25); SR 2 as storage is the spec's own choice D28 (log 17), halted and out D27 and D26 (log 15). -/
def Obligations.SystemStateChangesOnlyByItsInstruction : Prop :=
  ∀ (i : Instr) (s t : State), exec i s = .next t →
    t.cfg = s.cfg ∧ ((∀ r, i ≠ .srw 2 r) → t.ivt.toNat = s.ivt.toNat) ∧
    ((∀ r, i ≠ .srw 4 r) → t.retired.toNat = s.retired.toNat) ∧
    ((∀ r, i ≠ .srw 5 r) → t.cycles.toNat = s.cycles.toNat) ∧
    ((∀ r, i ≠ .srw 3 r) → t.halted = s.halted) ∧ ((∀ r, i ≠ .srw 10 r) → t.out = s.out) ∧
    ((∀ r, i ≠ .srr r 5) → t.draws = s.draws) ∧
    ((∀ dst src, i = .xf dst src → dst.indirect = false) → SameMemory s t)

/-- R42 "Neither can be read by any instruction" and R35; the stored SR 5 is the spec's own choice D25 (log 6), out and halted D26 and D27 (log 15); draws is the model's own field (log 6). -/
def Obligations.HaltOutputAndCyclesAreNeverRead : Prop :=
  ∀ (i : Instr) (s : State) (h : Bool) (o : List Byte) (c : Word s.cfg.width),
    (∀ f, exec i s = .fault f → exec i { s with halted := h, out := o, cycles := c } = .fault f) ∧
    ∀ t, exec i s = .next t → ∃ u, exec i { s with halted := h, out := o, cycles := c } = .next u ∧
      u.cfg = t.cfg ∧ (∀ j, u.x j = t.x j) ∧ u.ivt.toNat = t.ivt.toNat ∧ u.retired.toNat = t.retired.toNat ∧
      u.draws = t.draws ∧ u.mem = t.mem

/-- R105, with R131, R133, R149 to R153, R200 and R252. -/
def Obligations.NoOperationForms : Prop :=
  ∀ (d r : Reg) (s : State),
    exec (.bitD d r) s = .next s ∧
    exec (.bitS d d) s = .next s ∧
    exec (.addImm d 0) s = .next s ∧
    exec (.subImm d 0) s = .next s ∧
    exec (.shlImm d 0) s = .next s ∧
    exec (.shrImm d 0) s = .next s ∧
    exec (.asrImm d 0) s = .next s ∧
    exec (.xf ⟨false, .keep, d⟩ ⟨false, .keep, d⟩) s = .next s ∧
    exec (.jc d 0) s = .next s

/-- R252 with R131, R172, R176, R177, R184, R185, R205 (b). -/
def Obligations.InstructionsOfEqualEffect : Prop :=
  ∀ (d r : Reg) (s : State),
    exec (.xf ⟨false, .keep, d⟩ ⟨false, .keep, r⟩) s = exec (.bitS d r) s ∧
    exec (.cmp d r) s = exec (.bitFalse d r) s ∧ exec (.cmpS d r) s = exec (.cmp d r) s ∧
    exec (.cmpES d r) s = exec (.cmpE d r) s ∧ exec (.cmpSI d r) s = exec (.cmpI d r) s ∧
    exec (.cmpESI d r) s = exec (.cmpEI d r) s ∧ exec (.jal Reg.pc r) s = exec (.bitS Reg.pc r) s

/-- The model's own invariant over R41 and R65: equal memories stay equal data (log 4), no step makes memory where none is mapped (D7, log 10), and no step changes the configuration (log 1). -/
def Obligations.StepKeepsMemoryCanonical : Prop :=
  ∀ s t : State, s.Inv → step s = .next t → t.Inv ∧ t.cfg = s.cfg

/-- The other half of the model's own invariant (log 4); the named machine is the model's choice (log 2). -/
def Obligations.ResetMeetsTheInvariant : Prop :=
  State.reset.Inv ∧ State.reset.cfg.wf ∧
    ∀ (c : Config) (p : PowerOn c.width), Memory.wf p.mem → Memory.within c p.mem → (State.resetWith c p).Inv

/-- R44 table, R301, R300 treatment (b); RESET_PC is an argument (D8), the unspecified contents are quantified (D30), halted and out are the spec's own choices D27 and D26 (log 15); the named values are the model's choice (log 2, log 3). -/
def Obligations.ResetStartsRunningAtResetPc : Prop :=
  (∀ (c : Config) (p : PowerOn c.width),
      (State.resetWith c p).retired.toNat = 0 ∧ (State.resetWith c p).cycles.toNat = 0 ∧
      (State.resetWith c p).x Reg.pc = c.resetPc.toNat ∧ (State.resetWith c p).halted = false ∧
      (State.resetWith c p).out = [] ∧ (State.resetWith c p).mem = p.mem ∧
      (State.resetWith c p).ivt = p.ivt ∧
      ∀ j, j ≠ Reg.pc → (State.resetWith c p).reg j = RegFile.read p.regs j) ∧
    State.reset = State.resetWith Config.prototype (PowerOn.named Config.prototype.width)

/-- R75: "BYTE_ORDER cannot be observed by any program", marked derived there from R60 to R63; one byte order for data and fetch is the spec's own choice D5 (log 18), alignment D6 (log 10). -/
def Obligations.ByteOrderIsInvisibleOn16Bits : Prop :=
  ∀ s t : State, s.cfg.width = .w16 → ByteSwapped s t →
    (∀ f, step s = .fault f → step t = .fault f) ∧
    ∀ s', step s = .next s' → ∃ t', step t = .next t' ∧ ByteSwapped s' t'
end

