-- ==== Sys2Proof/Laws/Encoding.lean ====
section
/-! SUPPORT. The opcode-table row of each format's words. -/

namespace Sys2Proof

/-- Two 16-bit words are equal when their sixteen bits are. -/
theorem eq_of_sixteen_bits {x y : BitVec 16} (h : ∀ i : Fin 16, x.getLsbD i.val = y.getLsbD i.val) : x = y :=
  BitVec.eq_of_getLsbD_eq fun i hi => h ⟨i, hi⟩

/-- The mask of a row that fixes the top `k` bits leaves those of a word and clears the rest. -/
theorem and_top_mask {k n : Nat} (hi : BitVec k) (lo : BitVec n) (i : Nat) :
    (((hi ++ lo) &&& (BitVec.allOnes k ++ 0#n)).getLsbD i) = (hi ++ 0#n).getLsbD i := by
  simp only [BitVec.getLsbD_and, BitVec.getLsbD_append]
  split
  · simp
  · by_cases h : i - n < k
    · simp [h]
    · simp [BitVec.getLsbD_allOnes, h, BitVec.getLsbD_of_ge hi (i - n) (by omega)]

/-- A word made of a fixed top part and anything below it, masked to the top part. -/
theorem append_and_mask {k n : Nat} (hi : BitVec k) (lo : BitVec n) :
    (hi ++ lo) &&& (BitVec.allOnes k ++ 0#n) = hi ++ 0#n :=
  BitVec.eq_of_getLsbD_eq fun i _ => and_top_mask hi lo i

/-- Fields may be grouped from either end. -/
theorem append_group {k m n : Nat} (a : BitVec k) (b : BitVec m) (c : BitVec n) (i : Nat) :
    (a ++ b ++ c).getLsbD i = (a ++ (b ++ c)).getLsbD i := by
  simp only [BitVec.getLsbD_append]
  split_ifs <;> first | rfl | omega | (congr 1; omega)

theorem encodeBit_masked (tt : BitVec 4) (d s : Reg) :
    encodeBit tt d s &&& 0xFF00#16 = (0b0001#4 ++ tt) ++ 0#8 := by
  have h : encodeBit tt d s = (0b0001#4 ++ tt) ++ (regBits s ++ regBits d) :=
    eq_of_sixteen_bits fun i => append_group _ _ _ _
  rw [h]; exact append_and_mask _ _

theorem encodeCmp_masked (f : BitVec 4) (d s : Reg) :
    encodeCmp f d s &&& 0xFF00#16 = (0b0011#4 ++ f) ++ 0#8 := by
  have h : encodeCmp f d s = (0b0011#4 ++ f) ++ (regBits s ++ regBits d) :=
    eq_of_sixteen_bits fun i => append_group _ _ _ _
  rw [h]; exact append_and_mask _ _

theorem encodeAri_masked (op : BitVec 3) (d s : Reg) :
    encodeAri op d s &&& 0xFF00#16 = (0b0010#4 ++ 0#1 ++ op) ++ 0#8 := by
  have h : encodeAri op d s = (0b0010#4 ++ 0#1 ++ op) ++ (regBits s ++ regBits d) :=
    eq_of_sixteen_bits fun i => append_group _ _ _ _
  rw [h]; exact append_and_mask _ _

theorem encodeAriImm_masked (op : BitVec 3) (d : Reg) (n : Nat) :
    encodeAriImm op d n &&& 0xFF00#16 = (0b0010#4 ++ 1#1 ++ op) ++ 0#8 := by
  have h : encodeAriImm op d n = (0b0010#4 ++ 1#1 ++ op) ++ (BitVec.ofNat 4 n ++ regBits d) :=
    eq_of_sixteen_bits fun i => append_group _ _ _ _
  rw [h]; exact append_and_mask _ _

/-- Four fields grouped from the right. -/
theorem append_group_four {k m n l : Nat} (a : BitVec k) (b : BitVec m) (c : BitVec n) (d : BitVec l) (i : Nat) :
    (a ++ b ++ c ++ d).getLsbD i = (a ++ (b ++ (c ++ d))).getLsbD i := by
  rw [append_group, append_group]

/-- Five fields grouped from the right. -/
theorem append_group_five {k m n l j : Nat} (a : BitVec k) (b : BitVec m) (c : BitVec n) (d : BitVec l)
    (e : BitVec j) (i : Nat) :
    (a ++ b ++ c ++ d ++ e).getLsbD i = (a ++ (b ++ (c ++ (d ++ e)))).getLsbD i := by
  rw [append_group, append_group, append_group]

/-- A word that is a top part above the rest, masked to the top part. -/
theorem masked_of_group {k n : Nat} {iw mask pattern : BitVec (k + n)} {top : BitVec k} {rest : BitVec n}
    (h : iw = top ++ rest) (hm : mask = BitVec.allOnes k ++ 0#n) (hp : pattern = top ++ 0#n) :
    iw &&& mask = pattern := by
  rw [h, hm, hp, append_and_mask]

end Sys2Proof
end

