-- ==== Sys2Proof/Laws/State.lean ====
section
/-! SUPPORT. One lemma per field of the state per update of it, so that no proof unfolds an update. -/

namespace Sys2Proof.Machine

/-! ### setReg -/

@[simp] theorem State.cfg_setReg (s : State) (i : Reg) (v : Word s.cfg.width) : (s.setReg i v).cfg = s.cfg := rfl
@[simp] theorem State.regs_setReg (s : State) (i : Reg) (v : Word s.cfg.width) : (s.setReg i v).regs = RegFile.write s.regs i v := rfl
@[simp] theorem State.ivt_setReg (s : State) (i : Reg) (v : Word s.cfg.width) : (s.setReg i v).ivt = s.ivt := rfl
@[simp] theorem State.retired_setReg (s : State) (i : Reg) (v : Word s.cfg.width) : (s.setReg i v).retired = s.retired := rfl
@[simp] theorem State.cycles_setReg (s : State) (i : Reg) (v : Word s.cfg.width) : (s.setReg i v).cycles = s.cycles := rfl
@[simp] theorem State.draws_setReg (s : State) (i : Reg) (v : Word s.cfg.width) : (s.setReg i v).draws = s.draws := rfl
@[simp] theorem State.mem_setReg (s : State) (i : Reg) (v : Word s.cfg.width) : (s.setReg i v).mem = s.mem := rfl
@[simp] theorem State.halted_setReg (s : State) (i : Reg) (v : Word s.cfg.width) : (s.setReg i v).halted = s.halted := rfl
@[simp] theorem State.out_setReg (s : State) (i : Reg) (v : Word s.cfg.width) : (s.setReg i v).out = s.out := rfl

/-! ### advancePc -/

@[simp] theorem State.cfg_advancePc (s : State) : (s.advancePc).cfg = s.cfg := rfl
@[simp] theorem State.regs_advancePc (s : State) : (s.advancePc).regs = RegFile.write s.regs Reg.pc (s.pc + BitVec.ofNat s.cfg.width.bits 2) := rfl
@[simp] theorem State.ivt_advancePc (s : State) : (s.advancePc).ivt = s.ivt := rfl
@[simp] theorem State.retired_advancePc (s : State) : (s.advancePc).retired = s.retired := rfl
@[simp] theorem State.cycles_advancePc (s : State) : (s.advancePc).cycles = s.cycles := rfl
@[simp] theorem State.draws_advancePc (s : State) : (s.advancePc).draws = s.draws := rfl
@[simp] theorem State.mem_advancePc (s : State) : (s.advancePc).mem = s.mem := rfl
@[simp] theorem State.halted_advancePc (s : State) : (s.advancePc).halted = s.halted := rfl
@[simp] theorem State.out_advancePc (s : State) : (s.advancePc).out = s.out := rfl

/-! ### retire -/

@[simp] theorem State.cfg_retire (s : State) : (s.retire).cfg = s.cfg := rfl
@[simp] theorem State.regs_retire (s : State) : (s.retire).regs = s.regs := rfl
@[simp] theorem State.ivt_retire (s : State) : (s.retire).ivt = s.ivt := rfl
@[simp] theorem State.retired_retire (s : State) : (s.retire).retired = s.retired + BitVec.ofNat s.cfg.width.bits 1 := rfl
@[simp] theorem State.cycles_retire (s : State) : (s.retire).cycles = s.cycles := rfl
@[simp] theorem State.draws_retire (s : State) : (s.retire).draws = s.draws := rfl
@[simp] theorem State.mem_retire (s : State) : (s.retire).mem = s.mem := rfl
@[simp] theorem State.halted_retire (s : State) : (s.retire).halted = s.halted := rfl
@[simp] theorem State.out_retire (s : State) : (s.retire).out = s.out := rfl

/-! ### placeInsn -/

@[simp] theorem State.cfg_placeInsn (s : State) (iw : BitVec 16) : (s.placeInsn iw).cfg = s.cfg := rfl
@[simp] theorem State.regs_placeInsn (s : State) (iw : BitVec 16) : (s.placeInsn iw).regs = s.regs := rfl
@[simp] theorem State.ivt_placeInsn (s : State) (iw : BitVec 16) : (s.placeInsn iw).ivt = s.ivt := rfl
@[simp] theorem State.retired_placeInsn (s : State) (iw : BitVec 16) : (s.placeInsn iw).retired = s.retired := rfl
@[simp] theorem State.cycles_placeInsn (s : State) (iw : BitVec 16) : (s.placeInsn iw).cycles = s.cycles := rfl
@[simp] theorem State.draws_placeInsn (s : State) (iw : BitVec 16) : (s.placeInsn iw).draws = s.draws := rfl
@[simp] theorem State.mem_placeInsn (s : State) (iw : BitVec 16) : (s.placeInsn iw).mem = Memory.setAll s.mem (addresses s.pc 2) (bytesOf s.cfg.byteOrder 2 iw) := rfl
@[simp] theorem State.halted_placeInsn (s : State) (iw : BitVec 16) : (s.placeInsn iw).halted = s.halted := rfl
@[simp] theorem State.out_placeInsn (s : State) (iw : BitVec 16) : (s.placeInsn iw).out = s.out := rfl

/-! ### afterSysRead -/

@[simp] theorem State.cfg_afterSysRead (s : State) (n : Nat) : (s.afterSysRead n).cfg = s.cfg := rfl
@[simp] theorem State.regs_afterSysRead (s : State) (n : Nat) : (s.afterSysRead n).regs = s.regs := rfl
@[simp] theorem State.ivt_afterSysRead (s : State) (n : Nat) : (s.afterSysRead n).ivt = s.ivt := rfl
@[simp] theorem State.retired_afterSysRead (s : State) (n : Nat) : (s.afterSysRead n).retired = s.retired := rfl
@[simp] theorem State.cycles_afterSysRead (s : State) (n : Nat) : (s.afterSysRead n).cycles = s.cycles := rfl
@[simp] theorem State.draws_afterSysRead (s : State) (n : Nat) : (s.afterSysRead n).draws = if n = 5 then s.draws + 1 else s.draws := rfl
@[simp] theorem State.mem_afterSysRead (s : State) (n : Nat) : (s.afterSysRead n).mem = s.mem := rfl
@[simp] theorem State.halted_afterSysRead (s : State) (n : Nat) : (s.afterSysRead n).halted = s.halted := rfl
@[simp] theorem State.out_afterSysRead (s : State) (n : Nat) : (s.afterSysRead n).out = s.out := rfl

/-! ### withFetchWord -/

@[simp] theorem State.cfg_withFetchWord (s : State) (nbits w : Nat) : (s.withFetchWord nbits w).cfg = s.cfg := rfl
@[simp] theorem State.regs_withFetchWord (s : State) (nbits w : Nat) : (s.withFetchWord nbits w).regs = s.regs := rfl
@[simp] theorem State.ivt_withFetchWord (s : State) (nbits w : Nat) : (s.withFetchWord nbits w).ivt = s.ivt := rfl
@[simp] theorem State.retired_withFetchWord (s : State) (nbits w : Nat) : (s.withFetchWord nbits w).retired = s.retired := rfl
@[simp] theorem State.cycles_withFetchWord (s : State) (nbits w : Nat) : (s.withFetchWord nbits w).cycles = s.cycles := rfl
@[simp] theorem State.draws_withFetchWord (s : State) (nbits w : Nat) : (s.withFetchWord nbits w).draws = s.draws := rfl
@[simp] theorem State.mem_withFetchWord (s : State) (nbits w : Nat) : (s.withFetchWord nbits w).mem = (s.placeInsn (BitVec.ofNat 16 w)).mem := rfl
@[simp] theorem State.halted_withFetchWord (s : State) (nbits w : Nat) : (s.withFetchWord nbits w).halted = s.halted := rfl
@[simp] theorem State.out_withFetchWord (s : State) (nbits w : Nat) : (s.withFetchWord nbits w).out = s.out := rfl

/-! ### resetWith -/

@[simp] theorem State.cfg_resetWith (c : Config) (p : PowerOn c.width) : (State.resetWith c p).cfg = c := rfl
@[simp] theorem State.regs_resetWith (c : Config) (p : PowerOn c.width) : (State.resetWith c p).regs = p.regs.set 0 c.resetPc := rfl
@[simp] theorem State.ivt_resetWith (c : Config) (p : PowerOn c.width) : (State.resetWith c p).ivt = p.ivt := rfl
@[simp] theorem State.retired_resetWith (c : Config) (p : PowerOn c.width) : (State.resetWith c p).retired = 0#c.width.bits := rfl
@[simp] theorem State.cycles_resetWith (c : Config) (p : PowerOn c.width) : (State.resetWith c p).cycles = 0#c.width.bits := rfl
@[simp] theorem State.draws_resetWith (c : Config) (p : PowerOn c.width) : (State.resetWith c p).draws = p.draws := rfl
@[simp] theorem State.mem_resetWith (c : Config) (p : PowerOn c.width) : (State.resetWith c p).mem = p.mem := rfl
@[simp] theorem State.halted_resetWith (c : Config) (p : PowerOn c.width) : (State.resetWith c p).halted = false := rfl
@[simp] theorem State.out_resetWith (c : Config) (p : PowerOn c.width) : (State.resetWith c p).out = [] := rfl

/-! ### Registers -/

@[simp] theorem RegFile.read_write_same {w : WordSize} (r : RegFile w) (i : Reg) (v : Word w) :
    RegFile.read (RegFile.write r i v) i = v := by
  simp [RegFile.read, RegFile.write]

@[simp] theorem RegFile.read_write_of_ne {w : WordSize} (r : RegFile w) {i j : Reg} (h : j ≠ i) (v : Word w) :
    RegFile.read (RegFile.write r i v) j = RegFile.read r j := by
  have hij : i.val ≠ j.val := fun e => h (Fin.ext e.symm)
  simp [RegFile.read, RegFile.write, Vector.getElem_set_ne, hij]

/-- What a register reads as after a write: the new value, or what it was. -/
theorem RegFile.read_write {w : WordSize} (r : RegFile w) (i j : Reg) (v : Word w) :
    RegFile.read (RegFile.write r i v) j = if j = i then v else RegFile.read r j := by
  split
  · next h => subst h; exact RegFile.read_write_same r j v
  · next h => exact RegFile.read_write_of_ne r h v

/-- Two register files that read the same are the same. -/
theorem RegFile.ext_read {w : WordSize} {r r' : RegFile w} (h : ∀ i, RegFile.read r i = RegFile.read r' i) :
    r = r' :=
  Vector.ext fun i hi => h ⟨i, hi⟩

/-- Writing back what a register holds changes nothing. -/
@[simp] theorem RegFile.write_read_self {w : WordSize} (r : RegFile w) (i : Reg) :
    RegFile.write r i (RegFile.read r i) = r :=
  RegFile.ext_read fun j => by
    rw [RegFile.read_write]
    split
    · next h => rw [h]
    · rfl

theorem State.reg_eq_read (s : State) (i : Reg) : s.reg i = RegFile.read s.regs i := rfl

@[simp] theorem State.reg_setReg_same (s : State) (i : Reg) (v : Word s.cfg.width) : (s.setReg i v).reg i = v :=
  RegFile.read_write_same s.regs i v

@[simp] theorem State.reg_setReg_of_ne (s : State) {i j : Reg} (h : j ≠ i) (v : Word s.cfg.width) :
    (s.setReg i v).reg j = s.reg j :=
  RegFile.read_write_of_ne s.regs h v

end Sys2Proof.Machine
end

