-- ==== Sys2Proof/Laws/Memory.lean ====
section
/-! SUPPORT. What the memory operations do, said once: reads after writes, the canonical form and the
range of addresses that every write keeps. -/

namespace Sys2Proof.Machine

/-! ### One byte -/

@[simp] theorem Memory.get_set_same (m : Memory) (a : Nat) (b : Byte) : Memory.get (Memory.set m a b) a = some b := by
  induction m with
  | nil => simp [Memory.set, Memory.get]
  | cons p m ih =>
    obtain ⟨k, x⟩ := p
    simp only [Memory.set]
    split_ifs with h1 h2
    · simp [Memory.get]
    · simp [Memory.get]
    · simp [Memory.get, h2, ih]

@[simp] theorem Memory.get_set_of_ne (m : Memory) {a c : Nat} (h : c ≠ a) (b : Byte) :
    Memory.get (Memory.set m a b) c = Memory.get m c := by
  induction m with
  | nil => simp [Memory.set, Memory.get, h.symm]
  | cons p m ih =>
    obtain ⟨k, x⟩ := p
    simp only [Memory.set]
    split_ifs with h1 h2
    · simp [Memory.get, h.symm]
    · subst h2; simp [Memory.get, h.symm]
    · simp [Memory.get, ih]

/-- What an address reads as after a byte is written. -/
theorem Memory.get_set (m : Memory) (a c : Nat) (b : Byte) :
    Memory.get (Memory.set m a b) c = if c = a then some b else Memory.get m c := by
  split
  · next h => subst h; exact Memory.get_set_same m c b
  · next h => exact Memory.get_set_of_ne m h b

/-- Writing a byte lists its own address and no other new one. -/
theorem Memory.mem_set {m : Memory} {a : Nat} {b : Byte} {p : Host.Cell} (h : p ∈ Memory.set m a b) :
    p = (a, b) ∨ p ∈ m := by
  induction m with
  | nil => simpa [Memory.set] using h
  | cons q m ih =>
    obtain ⟨k, x⟩ := q
    simp only [Memory.set] at h
    split_ifs at h with h1 h2
    · simpa using h
    · rcases List.mem_cons.1 h with h | h
      · exact .inl h
      · exact .inr (List.mem_cons_of_mem _ h)
    · rcases List.mem_cons.1 h with h | h
      · exact .inr (h ▸ List.mem_cons_self)
      · exact (ih h).imp id (List.mem_cons_of_mem _)

/-- Writing a byte keeps the canonical form. -/
theorem Memory.wf_set {m : Memory} (h : Memory.wf m) (a : Nat) (b : Byte) : Memory.wf (Memory.set m a b) := by
  induction m with
  | nil => simp [Memory.set]
  | cons q m ih =>
    obtain ⟨k, x⟩ := q
    obtain ⟨hk, hm⟩ := List.pairwise_cons.1 h
    simp only [Memory.set]
    split_ifs with h1 h2
    · refine List.pairwise_cons.2 ⟨fun p hp => ?_, h⟩
      rcases List.mem_cons.1 hp with hp | hp
      · exact hp ▸ h1
      · exact lt_trans h1 (hk p hp)
    · exact List.pairwise_cons.2 ⟨fun p hp => h2 ▸ hk p hp, hm⟩
    · refine List.pairwise_cons.2 ⟨fun p hp => ?_, ih hm⟩
      rcases Memory.mem_set hp with hp | hp
      · subst hp; show k < a; omega
      · exact hk p hp

/-- A canonical memory is what its bytes read as: equal reads mean equal memories. -/
theorem Memory.ext_get {m m' : Memory} (h : Memory.wf m) (h' : Memory.wf m')
    (e : ∀ a, Memory.get m a = Memory.get m' a) : m = m' := by
  have below : ∀ (n : Memory) (c : Nat), (∀ p ∈ n, c < p.1) → Memory.get n c = none := by
    intro n c hn
    induction n with
    | nil => rfl
    | cons p n ih =>
      have hp : c < p.1 := hn p List.mem_cons_self
      simp only [Memory.get, show p.1 ≠ c by omega, if_false]
      exact ih fun q hq => hn q (List.mem_cons_of_mem _ hq)
  induction m generalizing m' with
  | nil =>
    cases m' with
    | nil => rfl
    | cons p n => have := e p.1; simp [Memory.get] at this
  | cons p m ih =>
    cases m' with
    | nil => have := e p.1; simp [Memory.get] at this
    | cons q n =>
      obtain ⟨hp, hm⟩ := List.pairwise_cons.1 h
      obtain ⟨hq, hn⟩ := List.pairwise_cons.1 h'
      have hkey : p.1 = q.1 := by
        by_contra hne
        rcases Nat.lt_or_gt_of_ne hne with hlt | hlt
        · have := e p.1
          rw [below (q :: n) p.1 (List.forall_mem_cons.2 ⟨hlt, fun r hr => lt_trans hlt (hq r hr)⟩)] at this
          simp [Memory.get] at this
        · have := e q.1
          rw [below (p :: m) q.1 (List.forall_mem_cons.2 ⟨hlt, fun r hr => lt_trans hlt (hp r hr)⟩)] at this
          simp [Memory.get] at this
      have hval : p.2 = q.2 := by
        have := e p.1
        simpa [Memory.get, hkey] using this
      have htail : m = n := by
        refine ih hm hn fun a => ?_
        by_cases ha : a = p.1
        · subst ha
          rw [below m p.1 hp, below n p.1 fun r hr => hkey ▸ hq r hr]
        · have := e a
          simpa [Memory.get, hkey ▸ (Ne.symm ha), Ne.symm ha] using this
      rw [htail, Prod.ext hkey hval]

/-! ### Several bytes -/

/-- Bytes outside the addresses written keep their values. -/
theorem Memory.get_setAll_of_notMem {m : Memory} {as : List Nat} {bs : List Byte} {c : Nat} (h : c ∉ as) :
    Memory.get (Memory.setAll m as bs) c = Memory.get m c := by
  induction as generalizing m bs with
  | nil => simp [Memory.setAll]
  | cons a as ih =>
    cases bs with
    | nil => simp [Memory.setAll]
    | cons b bs =>
      rw [List.mem_cons, not_or] at h
      rw [Memory.setAll, ih h.2, Memory.get_set_of_ne _ h.1]

/-- Bytes written at distinct addresses read back. -/
theorem Memory.getAll_setAll {m : Memory} {as : List Nat} {bs : List Byte} (hd : as.Nodup)
    (hl : as.length = bs.length) : Memory.getAll (Memory.setAll m as bs) as = some bs := by
  have pass : ∀ (as cs : List Nat) (m m' : Memory), (∀ c ∈ cs, Memory.get m' c = Memory.get m c) →
      Memory.getAll m' cs = Memory.getAll m cs := by
    intro as cs m m' h
    induction cs with
    | nil => rfl
    | cons c cs ih =>
      simp only [Memory.getAll, h c List.mem_cons_self, ih fun d hd => h d (List.mem_cons_of_mem _ hd)]
  induction as generalizing m bs with
  | nil => cases bs with
    | nil => rfl
    | cons b bs => simp at hl
  | cons a as ih =>
    cases bs with
    | nil => simp at hl
    | cons b bs =>
      obtain ⟨ha, hd⟩ := List.nodup_cons.1 hd
      simp only [Memory.setAll, Memory.getAll, Memory.get_setAll_of_notMem ha, Memory.get_set_same,
        ih hd (by simpa using hl)]

theorem Memory.wf_setAll {m : Memory} (h : Memory.wf m) (as : List Nat) (bs : List Byte) :
    Memory.wf (Memory.setAll m as bs) := by
  induction as generalizing m bs with
  | nil => simpa [Memory.setAll] using h
  | cons a as ih =>
    cases bs with
    | nil => simpa [Memory.setAll] using h
    | cons b bs => exact ih (Memory.wf_set h a b) bs

/-- A byte listed after a write is at a written address or was listed before. -/
theorem Memory.mem_setAll {m : Memory} {as : List Nat} {bs : List Byte} {p : Host.Cell}
    (h : p ∈ Memory.setAll m as bs) : p.1 ∈ as ∨ p ∈ m := by
  induction as generalizing m bs with
  | nil => exact .inr (by simpa [Memory.setAll] using h)
  | cons a as ih =>
    cases bs with
    | nil => exact .inr (by simpa [Memory.setAll] using h)
    | cons b bs =>
      rcases ih h with h | h
      · exact .inl (List.mem_cons_of_mem _ h)
      · rcases Memory.mem_set h with h | h
        · exact .inl (by simp [h])
        · exact .inr h

/-! ### Addresses -/

theorem length_addresses {w : WordSize} (a : Word w) (n : Nat) : (addresses a n).length = n := by
  simp [addresses]

theorem mem_addresses {w : WordSize} {a : Word w} {n c : Nat} :
    c ∈ addresses a n ↔ ∃ k, k < n ∧ (a.toNat + k) % 2 ^ w.bits = c := by
  simp [addresses]

/-- The addresses of one access are distinct. -/
theorem nodup_addresses {w : WordSize} (a : Word w) {n : Nat} (hn : n ≤ 2 ^ w.bits) : (addresses a n).Nodup := by
  refine List.Nodup.map_on (fun i hi j hj h => ?_) List.nodup_range
  have ha := a.isLt
  have hi : i < n := List.mem_range.1 hi
  have hj : j < n := List.mem_range.1 hj
  have key : ∀ k < n, (a.toNat + k) % 2 ^ w.bits = a.toNat + k ∨
      (a.toNat + k) % 2 ^ w.bits + 2 ^ w.bits = a.toNat + k := by
    intro k hk
    rcases Nat.lt_or_ge (a.toNat + k) (2 ^ w.bits) with h | h
    · exact .inl (Nat.mod_eq_of_lt h)
    · right
      rw [Nat.mod_eq_sub_mod h, Nat.mod_eq_of_lt (by omega)]
      omega
  rcases key i hi with h1 | h1 <;> rcases key j hj with h2 | h2 <;> omega

theorem WordSize.bytes_le (w : WordSize) : w.bytes ≤ 8 := by cases w <;> decide

theorem WordSize.eight_le (w : WordSize) : 8 ≤ 2 ^ w.bits := by
  have : (3 : Nat) ≤ w.bits := by cases w <;> decide
  calc 8 = 2 ^ 3 := rfl
    _ ≤ 2 ^ w.bits := Nat.pow_le_pow_right (by decide) this

/-! ### Words -/

theorem length_bytesOf (o : ByteOrder) (n : Nat) (v : BitVec (8 * n)) : (bytesOf o n v).length = n := by
  cases o <;> simp [bytesOf]

/-- When an access does not stop, it is aligned and every byte it touches is mapped. -/
theorem accessFault_eq_none {c : Config} {k : AccessKind} {a : Word c.width} {n : Nat} :
    accessFault c k a n = none ↔ a.toNat % n = 0 ∧ ∀ x ∈ addresses a n, isMapped c x = true := by
  unfold accessFault
  split_ifs with h1 h2 <;> simp_all

/-- What a write to memory can do: nothing but set the bytes of an access that does not stop. -/
theorem memWrite_ok {c : Config} {m m' : Memory} {a : Word c.width} {n : Nat} {v : BitVec (8 * n)}
    (h : memWrite c m a n v = .ok m') :
    accessFault c .store a n = none ∧ m' = Memory.setAll m (addresses a n) (bytesOf c.byteOrder n v) := by
  unfold memWrite at h
  split at h
  · cases h
  · next hf => exact ⟨hf, (Except.ok.inj h).symm⟩

/-- What a read of memory can answer: the bytes of an access that does not stop, assembled. -/
theorem memRead_ok {c : Config} {m : Memory} {k : AccessKind} {a : Word c.width} {n : Nat} {v : BitVec (8 * n)}
    (h : memRead c m k a n = .ok v) :
    accessFault c k a n = none ∧ ∃ bs, Memory.getAll m (addresses a n) = some bs ∧
      v = BitVec.ofNat (8 * n) (assemble c.byteOrder bs) := by
  unfold memRead at h
  split at h
  · cases h
  · next hf =>
    split at h
    · next bs hb => exact ⟨hf, bs, hb, (Except.ok.inj h).symm⟩
    · cases h

/-! ### A value and its bytes -/

/-- The number made of the low `n` bytes of `v`. -/
theorem ofBytesLE_byteOf {w : Nat} (v : BitVec w) (n : Nat) :
    ofBytesLE ((List.range n).map fun k => byteOf v k) = v.toNat % 2 ^ (8 * n) := by
  have key : ∀ n k, ofBytesLE ((List.range' k n).map fun k => byteOf v k) =
      v.toNat / 2 ^ (8 * k) % 2 ^ (8 * n) := by
    intro n
    induction n with
    | zero => intro k; simp [ofBytesLE, Nat.mod_one]
    | succ n ih =>
      intro k
      simp only [List.range'_succ, List.map_cons, ofBytesLE, ih]
      simp only [byteOf, BitVec.extractLsb'_toNat, Nat.shiftRight_eq_div_pow]
      rw [show 8 * (n + 1) = 8 + 8 * n by ring, pow_add, Nat.mod_mul, show 8 * (k + 1) = 8 * k + 8 by ring,
        pow_add, Nat.div_div_eq_div_mul]
      norm_num
  simpa [List.range_eq_range'] using key n 0

/-- Assembling the bytes of a value, in either byte order, gives the value back. -/
theorem assemble_bytesOf (o : ByteOrder) {n : Nat} (v : BitVec (8 * n)) :
    BitVec.ofNat (8 * n) (assemble o (bytesOf o n v)) = v := by
  have h : assemble o (bytesOf o n v) = v.toNat % 2 ^ (8 * n) := by
    cases o
    · exact ofBytesLE_byteOf v n
    · rw [← ofBytesLE_byteOf v n]
      simp only [assemble, bytesOf]
      congr 1
      refine List.ext_getElem (by simp) fun i h1 h2 => ?_
      simp only [List.length_map, List.length_range] at h2
      simp only [List.getElem_reverse, List.getElem_map, List.getElem_range, List.length_map, List.length_range]
      congr 1
      omega
  exact BitVec.eq_of_toNat_eq (by simp [h])

/-! ### What an access answers -/

theorem accessFault_of_misaligned {c : Config} {k : AccessKind} {a : Word c.width} {n : Nat} (h : a.toNat % n ≠ 0) :
    accessFault c k a n = some (.misaligned k a.toNat) := by
  simp [accessFault, h]

theorem accessFault_of_unmapped {c : Config} {k : AccessKind} {a : Word c.width} {n : Nat} (h : a.toNat % n = 0)
    {j : Nat} (hj : j < n) (hm : isMapped c ((a.toNat + j) % 2 ^ c.width.bits) = false) :
    accessFault c k a n = some (.unmapped k a.toNat) := by
  have : (addresses a n).all (isMapped c) = false :=
    List.all_eq_false.2 ⟨_, mem_addresses.2 ⟨j, hj, rfl⟩, by simp [hm]⟩
  simp [accessFault, h, this]

theorem Memory.getAll_eq_none {m : Memory} {as : List Nat} {a : Nat} (h : a ∈ as) (h0 : Memory.get m a = none) :
    Memory.getAll m as = none := by
  induction as with
  | nil => cases h
  | cons b bs ih =>
    rcases List.mem_cons.1 h with rfl | h
    · simp [Memory.getAll, h0]
    · simp [Memory.getAll, ih h]

/-- A read of bytes that are there, aligned and mapped, gives their value. -/
theorem memRead_eq {c : Config} {m : Memory} {k : AccessKind} {a : Word c.width} {n : Nat} {v : BitVec (8 * n)}
    (h : accessFault c k a n = none) (hb : Memory.getAll m (addresses a n) = some (bytesOf c.byteOrder n v)) :
    memRead c m k a n = .ok v := by
  simp [memRead, h, hb, assemble_bytesOf]

/-- A write that does not stop sets the bytes. -/
theorem memWrite_eq {c : Config} (m : Memory) {a : Word c.width} {n : Nat} (v : BitVec (8 * n))
    (h : accessFault c .store a n = none) :
    memWrite c m a n v = .ok (Memory.setAll m (addresses a n) (bytesOf c.byteOrder n v)) := by
  simp [memWrite, h]

/-- A write to memory keeps the canonical form. -/
theorem memWrite_wf {c : Config} {m m' : Memory} {a : Word c.width} {n : Nat} {v : BitVec (8 * n)}
    (h : memWrite c m a n v = .ok m') (hm : Memory.wf m) : Memory.wf m' := by
  obtain ⟨-, rfl⟩ := memWrite_ok h
  exact Memory.wf_setAll hm _ _

/-- A write to memory lists existing bytes only. -/
theorem memWrite_within {c : Config} {m m' : Memory} {a : Word c.width} {n : Nat} {v : BitVec (8 * n)}
    (h : memWrite c m a n v = .ok m') (hm : Memory.within c m) : Memory.within c m' := by
  obtain ⟨hf, rfl⟩ := memWrite_ok h
  intro p hp
  rcases Memory.mem_setAll hp with hp | hp
  · refine ⟨?_, (accessFault_eq_none.1 hf).2 _ hp⟩
    obtain ⟨k, -, hk⟩ := mem_addresses.1 hp
    exact hk ▸ Nat.mod_lt _ (Nat.two_pow_pos _)
  · exact hm p hp

/-- Placing an instruction word keeps the canonical form. -/
theorem State.placeInsn_wf (s : State) (iw : BitVec 16) (h : Memory.wf s.mem) : Memory.wf (s.placeInsn iw).mem :=
  Memory.wf_setAll h _ _

/-- The memory of `State.reset` is in canonical form. -/
theorem State.reset_mem_wf : Memory.wf State.reset.mem := List.Pairwise.nil

end Sys2Proof.Machine
end

