-- ==== Sys2Proof/Laws/Ops.lean ====
section
/-! SUPPORT. What each shared operation can do, said once: a proof cites these and does not unfold the
operation. -/

namespace Sys2Proof.Machine

/-! ### Shapes of the register-only instructions -/

theorem stop_ne_next {f : Fault} {t : State} : stop f ≠ .next t := by simp [stop]

theorem bitwise_eq (tt : BitVec 4) (d r : Reg) (s : State) :
    bitwise tt d r s = .next (s.setReg d (bitLut tt (s.reg d) (s.reg r))) := rfl

theorem compare_eq (f : CmpFlags) (d r : Reg) (s : State) :
    compare f d r s = .next (s.setReg d (cmpResult f (s.reg d) (s.reg r))) := rfl

theorem writeResult_eq (d : Reg) (s : State) (v : Word s.cfg.width) : writeResult d s v = .next (s.setReg d v) := rfl

theorem withMultiplier_of_hasMul {iw : BitVec 16} {s : State} (h : s.cfg.hasMul = true)
    (go : Host.Outcome State Fault Refusal) : withMultiplier iw s go = go := by
  simp [withMultiplier, h]

theorem withMultiplier_of_not_hasMul {iw : BitVec 16} {s : State} (h : s.cfg.hasMul = false)
    (go : Host.Outcome State Fault Refusal) : withMultiplier iw s go = .fault (.noMultiplier iw) := by
  simp [withMultiplier, h, stop]

/-- What MUL can do: with the multiplier, what follows it; else stop. -/
theorem withMultiplier_next {iw : BitVec 16} {s t : State} {go : Host.Outcome State Fault Refusal}
    (h : withMultiplier iw s go = .next t) : s.cfg.hasMul = true ∧ go = .next t := by
  unfold withMultiplier at h
  split at h
  · next hm => exact ⟨hm, h⟩
  · exact absurd h stop_ne_next

theorem divideOp_of_ne_zero {iw : BitVec 16} {d : Reg} {s : State} (hm : s.cfg.hasMul = true)
    {divisor : Word s.cfg.width} (h : divisor ≠ 0#s.cfg.width.bits) (result : Word s.cfg.width) :
    divideOp iw d s divisor result = .next (s.setReg d result) := by
  simp [divideOp, withMultiplier, hm, h, writeResult]

theorem divideOp_of_zero {iw : BitVec 16} {d : Reg} {s : State} (hm : s.cfg.hasMul = true)
    (result : Word s.cfg.width) : divideOp iw d s 0#s.cfg.width.bits result = .fault (.divideByZero iw) := by
  simp [divideOp, withMultiplier, hm, stop]

/-- What DIV and MOD can do: with the multiplier and a divisor that is not 0, write the result. -/
theorem divideOp_next {iw : BitVec 16} {d : Reg} {s t : State} {divisor result : Word s.cfg.width}
    (h : divideOp iw d s divisor result = .next t) :
    s.cfg.hasMul = true ∧ divisor ≠ 0#s.cfg.width.bits ∧ t = s.setReg d result := by
  obtain ⟨hm, h⟩ := withMultiplier_next h
  split at h
  · exact absurd h stop_ne_next
  · next hz => exact ⟨hm, hz, (Host.Outcome.next.inj h).symm⟩

/-! ### System Registers -/

/-- Which System Registers a read may name (46_system_registers.md R218). -/
theorem readSysReg_isSome (s : State) (n : Nat) :
    (readSysReg s n).isSome = true ↔ n = 0 ∨ n = 1 ∨ n = 2 ∨ n = 4 ∨ n = 5 ∨ n = 6 ∨ n = 7 := by
  unfold readSysReg
  split <;> simp_all

/-- What SRR can do. -/
theorem execSrr_next {r : Reg} {n : Nat} {s t : State} (h : execSrr r n s = .next t) :
    ∃ v, readSysReg s n = some v ∧ t = { s.afterSysRead n with regs := RegFile.write s.regs r v } := by
  unfold execSrr at h
  split at h
  · next v hv => exact ⟨v, hv, (Host.Outcome.next.inj h).symm⟩
  · exact absurd h stop_ne_next

/-- What SRW can do: one of five writes. -/
theorem writeSysReg_next {s t : State} {n : Nat} {v : Word s.cfg.width} {iw : BitVec 16}
    (h : writeSysReg s n v iw = .next t) :
    (n = 2 ∧ t = { s with ivt := v }) ∨
    (n = 3 ∧ v >>> 1 = 0#s.cfg.width.bits ∧ t = { s with halted := s.halted || v.getLsbD 0 }) ∨
    (n = 4 ∧ t = { s with retired := v }) ∨
    (n = 5 ∧ t = { s with cycles := v }) ∨
    (n = 10 ∧ t = { s with out := s.out ++ [byteOf v 0] }) := by
  unfold writeSysReg at h
  split at h
  · exact .inl ⟨rfl, (Host.Outcome.next.inj h).symm⟩
  · split at h
    · exact absurd h stop_ne_next
    · next hv => exact .inr (.inl ⟨rfl, by simpa using hv, (Host.Outcome.next.inj h).symm⟩)
  · exact .inr (.inr (.inl ⟨rfl, (Host.Outcome.next.inj h).symm⟩))
  · exact .inr (.inr (.inr (.inl ⟨rfl, (Host.Outcome.next.inj h).symm⟩)))
  · exact .inr (.inr (.inr (.inr ⟨rfl, (Host.Outcome.next.inj h).symm⟩)))
  · exact absurd h stop_ne_next

/-! ### Data Transfer -/

@[simp] theorem Mode.before_keep {w : WordSize} (v : Word w) : Mode.before .keep v = v := rfl
@[simp] theorem Mode.before_postInc {w : WordSize} (v : Word w) : Mode.before .postInc v = v := rfl
@[simp] theorem Mode.before_preDec {w : WordSize} (v : Word w) : Mode.before .preDec v = v - Word.step w := rfl
@[simp] theorem Mode.before_postDec {w : WordSize} (v : Word w) : Mode.before .postDec v = v := rfl
@[simp] theorem Mode.after_keep {w : WordSize} (v : Word w) : Mode.after .keep v = v := rfl
@[simp] theorem Mode.after_postInc {w : WordSize} (v : Word w) : Mode.after .postInc v = v + Word.step w := rfl
@[simp] theorem Mode.after_preDec {w : WordSize} (v : Word w) : Mode.after .preDec v = v := rfl
@[simp] theorem Mode.after_postDec {w : WordSize} (v : Word w) : Mode.after .postDec v = v - Word.step w := rfl

/-- What a register reads as after `x[i] <- f(x[i])`. -/
theorem RegFile.read_update {w : WordSize} (r : RegFile w) (i j : Reg) (f : Word w → Word w) :
    RegFile.read (RegFile.update r i f) j = if j = i then f (RegFile.read r i) else RegFile.read r j :=
  RegFile.read_write r i j _

/-- What the source phase can answer (R246): the value at hand or loaded, and the stepped register. -/
theorem sourcePhase_ok {c : Config} {m : Memory} {o : Operand} {r r' : RegFile c.width} {v : Word c.width}
    (h : sourcePhase c m o r = .ok (v, r')) :
    (o.indirect = false ∧ v = Mode.before o.mode (r.read o.reg) ∨
      o.indirect = true ∧ loadWord c m (Mode.before o.mode (r.read o.reg)) = .ok v) ∧
    ∀ j, RegFile.read r' j =
      if j = o.reg then Mode.after o.mode (Mode.before o.mode (RegFile.read r o.reg)) else RegFile.read r j := by
  have hr : ∀ j, RegFile.read (RegFile.update (RegFile.update r o.reg (Mode.before o.mode)) o.reg
      (Mode.after o.mode)) j =
      if j = o.reg then Mode.after o.mode (Mode.before o.mode (RegFile.read r o.reg)) else RegFile.read r j := by
    intro j
    simp only [RegFile.read_update, if_true]
    split <;> rfl
  unfold sourcePhase at h
  simp only [RegFile.read_update, if_true] at h
  split at h
  · next hi =>
    split at h
    · cases h
    · next v' hv =>
      obtain ⟨rfl, rfl⟩ := Prod.mk.inj (Except.ok.inj h)
      exact ⟨.inr ⟨hi, hv⟩, hr⟩
  · next hi =>
    obtain ⟨rfl, rfl⟩ := Prod.mk.inj (Except.ok.inj h)
    exact ⟨.inl ⟨by simpa using hi, rfl⟩, hr⟩

/-- What the destination phase can answer (R247): a register written and stepped, or a word stored and
the address register stepped. -/
theorem destPhase_ok {c : Config} {m m' : Memory} {o : Operand} {v : Word c.width} {r r' : RegFile c.width}
    (h : destPhase c m o v r = .ok (r', m')) :
    (o.indirect = false ∧ m' = m ∧
      ∀ j, RegFile.read r' j = if j = o.reg then Mode.after o.mode v else RegFile.read r j) ∨
    (o.indirect = true ∧ storeWord c m (Mode.before o.mode (r.read o.reg)) v = .ok m' ∧
      ∀ j, RegFile.read r' j =
        if j = o.reg then Mode.after o.mode (Mode.before o.mode (RegFile.read r o.reg)) else RegFile.read r j) := by
  unfold destPhase at h
  simp only [RegFile.read_update, if_true] at h
  split at h
  · next hi =>
    split at h
    · cases h
    · next m'' hm =>
      obtain ⟨rfl, rfl⟩ := Prod.mk.inj (Except.ok.inj h)
      refine .inr ⟨hi, hm, fun j => ?_⟩
      simp only [RegFile.read_update, if_true]
      split <;> rfl
  · next hi =>
    obtain ⟨rfl, rfl⟩ := Prod.mk.inj (Except.ok.inj h)
    refine .inl ⟨by simpa using hi, rfl, fun j => ?_⟩
    simp only [RegFile.read_update, RegFile.read_write, if_true]
    split <;> rfl

/-- What XF can do (R245): the source phase, then the destination phase. -/
theorem execXf_next {dst src : Operand} {s t : State} (h : execXf dst src s = .next t) :
    ∃ v r r' m', sourcePhase s.cfg s.mem src s.regs = .ok (v, r) ∧
      destPhase s.cfg s.mem dst v r = .ok (r', m') ∧ t = { s with regs := r', mem := m' } := by
  unfold execXf at h
  split at h
  · exact absurd h stop_ne_next
  · next v r hs =>
    split at h
    · exact absurd h stop_ne_next
    · next r' m' hd => exact ⟨v, r, r', m', hs, hd, (Host.Outcome.next.inj h).symm⟩

/-! ### The step -/

/-- What the end of a step can answer. -/
theorem finishStep_next {o : Host.Outcome State Fault Refusal} {t : State} (h : finishStep o = .next t) :
    ∃ u, o = .next u ∧ t = u.retire := by
  cases o with
  | next u => exact ⟨u, rfl, (Host.Outcome.next.inj h).symm⟩
  | fault f => cases h
  | refused r => cases h

/-- What a step can do (00_scope.md R11): a halted core stays; else the fetched instruction completes
from the advanced state and retires. -/
theorem step_next {s t : State} (h : step s = .next t) :
    (s.halted = true ∧ t = s) ∨
    (s.halted = false ∧ ∃ iw u, fetchInsn s = .ok iw ∧ exec (decodeWord iw) s.advancePc = .next u ∧ t = u.retire) := by
  unfold step at h
  split at h
  · next hh => exact .inl ⟨hh, (Host.Outcome.next.inj h).symm⟩
  · next hh =>
    split at h
    · exact absurd h stop_ne_next
    · next iw hf =>
      obtain ⟨u, hu, ht⟩ := finishStep_next h
      exact .inr ⟨by simpa using hh, iw, u, hf, hu, ht⟩

end Sys2Proof.Machine
end

