-- ==== Sys2Proof/Laws/Exec.lean ====
section
/-! SUPPORT. What any instruction can do, said once: a proof about every instruction takes these five
cases apart and does not unfold the dispatch. -/

namespace Sys2Proof.Machine

/-- An instruction that completes writes one register that it names, or links and jumps, or reads a
System Register, or writes one, or transfers data. -/
theorem exec_next {i : Instr} {s t : State} (h : exec i s = .next t) :
    (∃ d v, d ∈ writtenRegs i ∧ t = s.setReg d v) ∨
    (∃ l p, i = .jal l p ∧ execJal l p s = .next t) ∨
    (∃ r n v, i = .srr r n ∧ t = { s.afterSysRead n with regs := RegFile.write s.regs r v }) ∨
    (∃ n r, i = .srw n r ∧ writeSysReg s n (s.reg r) (encode i) = .next t) ∨
    (∃ dst src, i = .xf dst src ∧ execXf dst src s = .next t) := by
  have done : ∀ {u : State}, (Host.Outcome.next u : Host.Outcome State Fault Refusal) = .next t → t = u :=
    fun h => (Host.Outcome.next.inj h).symm
  cases i
  case jal l p => exact .inr (.inl ⟨l, p, rfl, h⟩)
  case srr r n =>
    obtain ⟨v, -, h⟩ := execSrr_next h
    exact .inr (.inr (.inl ⟨r, n, v, rfl, h⟩))
  case srw n r => exact .inr (.inr (.inr (.inl ⟨n, r, rfl, h⟩)))
  case xf dst src => exact .inr (.inr (.inr (.inr ⟨dst, src, rfl, h⟩)))
  case mul d r => exact .inl ⟨d, _, List.mem_singleton.2 rfl, done (withMultiplier_next h).2⟩
  case mulImm d n => exact .inl ⟨d, _, List.mem_singleton.2 rfl, done (withMultiplier_next h).2⟩
  case div d r => exact .inl ⟨d, _, List.mem_singleton.2 rfl, (divideOp_next h).2.2⟩
  case mod d r => exact .inl ⟨d, _, List.mem_singleton.2 rfl, (divideOp_next h).2.2⟩
  case divImm d n => exact .inl ⟨d, _, List.mem_singleton.2 rfl, (divideOp_next h).2.2⟩
  case modImm d n => exact .inl ⟨d, _, List.mem_singleton.2 rfl, (divideOp_next h).2.2⟩
  case jc c off => exact .inl ⟨Reg.pc, _, List.mem_singleton.2 rfl, done h⟩
  all_goals first
    | exact .inl ⟨_, _, List.mem_singleton.2 rfl, done h⟩
    | exact (stop_ne_next h).elim

/-- What JAL can do. -/
theorem execJal_next {l p : Reg} {s t : State} (h : execJal l p s = .next t) :
    t = { s with regs := RegFile.write (RegFile.write s.regs l s.pc) Reg.pc
                          (RegFile.read (RegFile.write s.regs l s.pc) p) } :=
  (Host.Outcome.next.inj h).symm

end Sys2Proof.Machine
end

