-- ==== Sys2Proof/Laws/PerInstr.lean ====
section
/-! SUPPORT. Facts about every instruction as syntax, one lemma per constructor. RowMembership: the word
of an instruction belongs to the constructor's own row of spec/opcode_table.json. -/

namespace Sys2Proof.Laws.RowMembership

/-- The encoded word has the fixed bits of its table row (30_encoding.md section 6). -/
def Statement (i : Instr) : Prop := encode i &&& i.row.mask = i.row.pattern

theorem bitFalse (d s : Reg) : Statement (.bitFalse d s) := encodeBit_masked 0#4 d s
theorem bitNor (d s : Reg) : Statement (.bitNor d s) := encodeBit_masked 1#4 d s
theorem bitNcimpl (d s : Reg) : Statement (.bitNcimpl d s) := encodeBit_masked 2#4 d s
theorem bitNotd (d s : Reg) : Statement (.bitNotd d s) := encodeBit_masked 3#4 d s
theorem bitNimpl (d s : Reg) : Statement (.bitNimpl d s) := encodeBit_masked 4#4 d s
theorem bitNots (d s : Reg) : Statement (.bitNots d s) := encodeBit_masked 5#4 d s
theorem bitXor (d s : Reg) : Statement (.bitXor d s) := encodeBit_masked 6#4 d s
theorem bitNand (d s : Reg) : Statement (.bitNand d s) := encodeBit_masked 7#4 d s
theorem bitAnd (d s : Reg) : Statement (.bitAnd d s) := encodeBit_masked 8#4 d s
theorem bitXnor (d s : Reg) : Statement (.bitXnor d s) := encodeBit_masked 9#4 d s
theorem bitS (d s : Reg) : Statement (.bitS d s) := encodeBit_masked 10#4 d s
theorem bitImpl (d s : Reg) : Statement (.bitImpl d s) := encodeBit_masked 11#4 d s
theorem bitD (d s : Reg) : Statement (.bitD d s) := encodeBit_masked 12#4 d s
theorem bitCimpl (d s : Reg) : Statement (.bitCimpl d s) := encodeBit_masked 13#4 d s
theorem bitOr (d s : Reg) : Statement (.bitOr d s) := encodeBit_masked 14#4 d s
theorem bitTrue (d s : Reg) : Statement (.bitTrue d s) := encodeBit_masked 15#4 d s
theorem add (d s : Reg) : Statement (.add d s) := encodeAri_masked 0#3 d s
theorem sub (d s : Reg) : Statement (.sub d s) := encodeAri_masked 1#3 d s
theorem shl (d s : Reg) : Statement (.shl d s) := encodeAri_masked 2#3 d s
theorem shr (d s : Reg) : Statement (.shr d s) := encodeAri_masked 3#3 d s
theorem asr (d s : Reg) : Statement (.asr d s) := encodeAri_masked 4#3 d s
theorem mul (d s : Reg) : Statement (.mul d s) := encodeAri_masked 5#3 d s
theorem div (d s : Reg) : Statement (.div d s) := encodeAri_masked 6#3 d s
theorem mod (d s : Reg) : Statement (.mod d s) := encodeAri_masked 7#3 d s
theorem addImm (d : Reg) (n : Nat) : Statement (.addImm d n) := encodeAriImm_masked 0#3 d n
theorem subImm (d : Reg) (n : Nat) : Statement (.subImm d n) := encodeAriImm_masked 1#3 d n
theorem shlImm (d : Reg) (n : Nat) : Statement (.shlImm d n) := encodeAriImm_masked 2#3 d n
theorem shrImm (d : Reg) (n : Nat) : Statement (.shrImm d n) := encodeAriImm_masked 3#3 d n
theorem asrImm (d : Reg) (n : Nat) : Statement (.asrImm d n) := encodeAriImm_masked 4#3 d n
theorem mulImm (d : Reg) (n : Nat) : Statement (.mulImm d n) := encodeAriImm_masked 5#3 d n
theorem divImm (d : Reg) (n : Nat) : Statement (.divImm d n) := encodeAriImm_masked 6#3 d n
theorem modImm (d : Reg) (n : Nat) : Statement (.modImm d n) := encodeAriImm_masked 7#3 d n
theorem cmp (d s : Reg) : Statement (.cmp d s) := encodeCmp_masked 0#4 d s
theorem cmpE (d s : Reg) : Statement (.cmpE d s) := encodeCmp_masked 1#4 d s
theorem cmpG (d s : Reg) : Statement (.cmpG d s) := encodeCmp_masked 2#4 d s
theorem cmpEG (d s : Reg) : Statement (.cmpEG d s) := encodeCmp_masked 3#4 d s
theorem cmpS (d s : Reg) : Statement (.cmpS d s) := encodeCmp_masked 4#4 d s
theorem cmpES (d s : Reg) : Statement (.cmpES d s) := encodeCmp_masked 5#4 d s
theorem cmpGS (d s : Reg) : Statement (.cmpGS d s) := encodeCmp_masked 6#4 d s
theorem cmpEGS (d s : Reg) : Statement (.cmpEGS d s) := encodeCmp_masked 7#4 d s
theorem cmpI (d s : Reg) : Statement (.cmpI d s) := encodeCmp_masked 8#4 d s
theorem cmpEI (d s : Reg) : Statement (.cmpEI d s) := encodeCmp_masked 9#4 d s
theorem cmpGI (d s : Reg) : Statement (.cmpGI d s) := encodeCmp_masked 10#4 d s
theorem cmpEGI (d s : Reg) : Statement (.cmpEGI d s) := encodeCmp_masked 11#4 d s
theorem cmpSI (d s : Reg) : Statement (.cmpSI d s) := encodeCmp_masked 12#4 d s
theorem cmpESI (d s : Reg) : Statement (.cmpESI d s) := encodeCmp_masked 13#4 d s
theorem cmpGSI (d s : Reg) : Statement (.cmpGSI d s) := encodeCmp_masked 14#4 d s
theorem cmpEGSI (d s : Reg) : Statement (.cmpEGSI d s) := encodeCmp_masked 15#4 d s
theorem xf (dst src : Operand) : Statement (.xf dst src) :=
  masked_of_group (k := 2) (n := 14) (top := 0b01#2) (rest := src.spec ++ (dst.spec ++ (regBits src.reg ++ regBits dst.reg))) (eq_of_sixteen_bits fun _ => append_group_five ..) rfl rfl
theorem jc (c : Reg) (off : Int) : Statement (.jc c off) :=
  masked_of_group (k := 4) (n := 12) (top := 0b1000#4) (rest := regBits c ++ BitVec.ofInt 8 off) (eq_of_sixteen_bits fun _ => append_group ..) rfl rfl
theorem jal (l p : Reg) : Statement (.jal l p) :=
  masked_of_group (k := 8) (n := 8) (top := 0b10010#5 ++ 0#3) (rest := regBits p ++ regBits l) (eq_of_sixteen_bits fun _ => append_group ..) rfl rfl
theorem subword (d : Reg) (bi b : Nat) : Statement (.subword d bi b) :=
  masked_of_group (k := 5) (n := 11) (top := 0b10011#5) (rest := BitVec.ofNat 3 b ++ (BitVec.ofNat 4 bi ++ regBits d)) (eq_of_sixteen_bits fun _ => append_group_four ..) rfl rfl
theorem srr (r : Reg) (n : Nat) : Statement (.srr r n) :=
  masked_of_group (k := 4) (n := 12) (top := 0b1010#4) (rest := regBits r ++ BitVec.ofNat 8 n) (eq_of_sixteen_bits fun _ => append_group ..) rfl rfl
theorem srw (n : Nat) (r : Reg) : Statement (.srw n r) :=
  masked_of_group (k := 4) (n := 12) (top := 0b1011#4) (rest := regBits r ++ BitVec.ofNat 8 n) (eq_of_sixteen_bits fun _ => append_group ..) rfl rfl
theorem si (d : Reg) (imm : Nat) : Statement (.si d imm) :=
  masked_of_group (k := 4) (n := 12) (top := 0b1100#4) (rest := BitVec.ofNat 8 imm ++ regBits d) (eq_of_sixteen_bits fun _ => append_group ..) rfl rfl
theorem jalReservedBit10 (low : BitVec 10) : Statement (.jalReservedBit10 low) := append_and_mask 0b100101#6 low
theorem jalReservedBit9 (low : BitVec 9) : Statement (.jalReservedBit9 low) := append_and_mask 0b1001001#7 low
theorem jalReservedBit8 (low : BitVec 8) : Statement (.jalReservedBit8 low) := append_and_mask 0b10010001#8 low
theorem unassigned0 (low : BitVec 12) : Statement (.unassigned0 low) := append_and_mask 0b0000#4 low
theorem unassignedD (low : BitVec 12) : Statement (.unassignedD low) := append_and_mask 0b1101#4 low
theorem unassignedE (low : BitVec 12) : Statement (.unassignedE low) := append_and_mask 0b1110#4 low
theorem unassignedF (low : BitVec 12) : Statement (.unassignedF low) := append_and_mask 0b1111#4 low

end Sys2Proof.Laws.RowMembership
end

