-- ==== Sys2Proof/Tests/Slice0.lean ====
section
/-! SUPPORT. Tests: expected values are the vectors of spec/95_test_vectors.md or the examples of the
rule named, never the model's own answers. -/

namespace Sys2Proof.Tests

open Sys2Proof.Machine

/-! ### Small states -/

/-- A machine of a given size: multiplier as given, every address mapped, `RESET_PC = pc`. -/
def config (w : WordSize) (mul : Bool) (o : ByteOrder) (pc : Nat) : Config where
  width := w
  hasMul := mul
  modelId := 0#w.bits
  coreFreqKiHz := 1024#w.bits
  byteOrder := o
  resetPc := BitVec.ofNat w.bits pc
  mapped := [⟨0, 2 ^ w.bits⟩]

/-- Sets registers by number. -/
def withRegs (s : State) : List (Reg × Nat) → State
  | [] => s
  | (i, v) :: rs => withRegs (s.setReg i (BitVec.ofNat s.cfg.width.bits v)) rs

/-- Stores data words, in the machine's byte order. -/
def withWords (s : State) : List (Nat × Nat) → State
  | [] => s
  | (a, v) :: ws =>
    withWords { s with mem := Memory.setAll s.mem (addresses (BitVec.ofNat s.cfg.width.bits a) s.WB)
                                (bytesOf s.cfg.byteOrder s.WB (BitVec.ofNat s.cfg.width.bits v)) } ws

/-- The conventions of 95_test_vectors.md, Part 2, with the word at the program counter. -/
def start (c : Config) (regs : List (Reg × Nat)) (words : List (Nat × Nat)) (iw : Nat) : State :=
  (withWords (withRegs (State.resetWith c (PowerOn.named c.width)) regs) words).withFetchWord 16 iw

abbrev c16 : Config := config .w16 true .little 0x0100
abbrev c16NoMul : Config := config .w16 false .little 0x0100
abbrev c32 : Config := config .w32 true .big 0x0100
abbrev c64 : Config := config .w64 true .little 0x0100

/-- The outcome is a next state that passes the check. -/
def next (o : Host.Outcome State Fault Refusal) (p : State → Bool) : Bool :=
  match o with
  | .next t => p t
  | .fault _ => false
  | .refused _ => false

/-- The outcome is this fault. -/
def faults (o : Host.Outcome State Fault Refusal) (f : Fault) : Bool :=
  match o with
  | .next _ => false
  | .fault g => g == f
  | .refused _ => false

/-- One step of the word `iw` leaves the listed register values. -/
def leaves (c : Config) (regs : List (Reg × Nat)) (words : List (Nat × Nat)) (iw : Nat)
    (expect : List (Reg × Nat)) : Bool :=
  next (step (start c regs words iw)) fun t => expect.all fun p => t.x p.1 == p.2

/-- The data word at `a`. -/
def wordAt (t : State) (a : Nat) : Option Nat :=
  match loadWord t.cfg t.mem (BitVec.ofNat t.cfg.width.bits a) with
  | .ok v => some v.toNat
  | .error _ => none

/-! ### Well-formedness: every check refuses an ill-formed term -/

theorem test_wf_literal_refused : ¬ WellFormed (.addImm 1 16) := by decide
theorem test_wf_byte_index_refused : ¬ WellFormed (.subword 1 16 1) := by decide
theorem test_wf_byte_count_refused : ¬ WellFormed (.subword 1 1 8) := by decide
theorem test_wf_offset_low_refused : ¬ WellFormed (.jc 1 (-129)) := by decide
theorem test_wf_offset_high_refused : ¬ WellFormed (.jc 1 128) := by decide
theorem test_wf_sr_number_refused : ¬ WellFormed (.srr 1 256) := by decide
theorem test_wf_immediate_refused : ¬ WellFormed (.si 1 256) := by decide
theorem test_wf_bounds_accepted : WellFormed (.addImm 1 15) ∧ WellFormed (.jc 1 (-128)) ∧ WellFormed (.jc 1 127) ∧
    WellFormed (.subword 1 15 7) ∧ WellFormed (.srw 255 1) ∧ WellFormed (.si 1 255) := by decide

/-! ### Decoding: words written out from the formats R93 to R101 -/

/-- Every pair decodes to its instruction. -/
def decodes (l : List (BitVec 16 × Instr)) : Bool := l.all fun p => decodeWord p.1 == p.2

theorem test_decode_formats_bit_by_bit : decodes
    [(0b0001_0110_0010_0001#16, .bitXor 1 2), (0b0010_0_001_0010_0001#16, .sub 1 2),
     (0b0010_1_101_1010_0001#16, .mulImm 1 10), (0b0011_1_1_1_0_0011_0101#16, .cmpGSI 5 3),
     (0b1000_0001_11111101#16, .jc 1 (-3)), (0b10010_000_0101_0011#16, .jal 3 5),
     (0b10011_010_0001_0001#16, .subword 1 1 2), (0b101_0_0001_00000001#16, .srr 1 1),
     (0b101_1_0100_00000011#16, .srw 3 4), (0b1100_00010010_0001#16, .si 1 0x12),
     (0b01_0_00_1_10_0001_1111#16, .xf ⟨true, .preDec, 15⟩ ⟨false, .keep, 1⟩),
     (0b01_1_01_0_00_1111_0010#16, .xf ⟨false, .keep, 2⟩ ⟨true, .postInc, 15⟩),
     (0b01_1_11_1_10_0010_0001#16, .xf ⟨true, .preDec, 1⟩ ⟨true, .postDec, 2⟩)] = true := by decide

theorem test_decode_bitwise : decodes
    [(0x1021, .bitFalse 1 2), (0x1121, .bitNor 1 2), (0x1221, .bitNcimpl 1 2), (0x1321, .bitNotd 1 2),
     (0x1421, .bitNimpl 1 2), (0x1521, .bitNots 1 2), (0x1621, .bitXor 1 2), (0x1721, .bitNand 1 2),
     (0x1821, .bitAnd 1 2), (0x1921, .bitXnor 1 2), (0x1A21, .bitS 1 2), (0x1B21, .bitImpl 1 2),
     (0x1C21, .bitD 1 2), (0x1D21, .bitCimpl 1 2), (0x1E21, .bitOr 1 2), (0x1F21, .bitTrue 1 2)] = true := by decide

theorem test_decode_arithmetic : decodes
    [(0x2021, .add 1 2), (0x2121, .sub 1 2), (0x2221, .shl 1 2), (0x2321, .shr 1 2), (0x2421, .asr 1 2),
     (0x2521, .mul 1 2), (0x2621, .div 1 2), (0x2721, .mod 1 2), (0x28F1, .addImm 1 15), (0x2911, .subImm 1 1),
     (0x2A41, .shlImm 1 4), (0x2B41, .shrImm 1 4), (0x2CF1, .asrImm 1 15), (0x2DA1, .mulImm 1 10),
     (0x2EA1, .divImm 1 10), (0x2FA1, .modImm 1 10)] = true := by decide

theorem test_decode_comparison : decodes
    [(0x3021, .cmp 1 2), (0x3121, .cmpE 1 2), (0x3221, .cmpG 1 2), (0x3321, .cmpEG 1 2), (0x3421, .cmpS 1 2),
     (0x3521, .cmpES 1 2), (0x3621, .cmpGS 1 2), (0x3721, .cmpEGS 1 2), (0x3821, .cmpI 1 2), (0x3921, .cmpEI 1 2),
     (0x3A21, .cmpGI 1 2), (0x3B21, .cmpEGI 1 2), (0x3C21, .cmpSI 1 2), (0x3D21, .cmpESI 1 2),
     (0x3E21, .cmpGSI 1 2), (0x3F21, .cmpEGSI 1 2)] = true := by decide

theorem test_decode_others : decodes
    [(0x4021, .xf ⟨false, .keep, 1⟩ ⟨false, .keep, 2⟩), (0x8180, .jc 1 (-128)), (0x817F, .jc 1 127),
     (0x90FF, .jal 15 15), (0x9800, .subword 0 0 0), (0xABCD, .srr 11 205), (0xB10A, .srw 10 1),
     (0xC80F, .si 15 0x80), (0x9753, .jalReservedBit10 0x353), (0x9253, .jalReservedBit9 0x053),
     (0x9153, .jalReservedBit8 0x53), (0x0FFF, .unassigned0 0xFFF), (0xD000, .unassignedD 0),
     (0xE123, .unassignedE 0x123), (0xFFFF, .unassignedF 0xFFF)] = true := by decide

theorem test_decode_too_few_bytes : decode .little [0x21#8] = .error .fewerThanTwoBytes := by rfl

theorem test_decode_byte_order : (decode .little [0x51#8, 0xC0#8, 0#8]).toOption = some (.si 1 5, [0#8]) ∧
    (decode .big [0xC0#8, 0x51#8]).toOption = some (.si 1 5, []) := by decide

theorem test_decodeTableWord : decodeTableWord 16 0xC051 = some (.si 1 5) := by decide

/-! ### One step per instruction, the vectors of 95_test_vectors.md Part 2 -/

/-- 2.1: the low digit of the result is the truth-table number. -/
theorem test_bitwise : ([(0x1021, 0x0000), (0x1121, 0xFFF1), (0x1221, 0x0002), (0x1321, 0xFFF3), (0x1421, 0x0004),
    (0x1521, 0xFFF5), (0x1621, 0x0006), (0x1721, 0xFFF7), (0x1821, 0x0008), (0x1921, 0xFFF9), (0x1A21, 0x000A),
    (0x1B21, 0xFFFB), (0x1C21, 0x000C), (0x1D21, 0xFFFD), (0x1E21, 0x000E), (0x1F21, 0xFFFF)].all fun p =>
      leaves c16 [(1, 0x000C), (2, 0x000A)] [] p.1 [(1, p.2), (2, 0x000A), (0, 0x0102)]) = true := by decide

/-- 2.1 with `S = D`, other widths, and R0. -/
theorem test_bitwise_corners :
    ([(0x1011, 0x0000), (0x1111, 0xFF0F), (0x1811, 0x00F0), (0x1911, 0xFFFF)].all fun p =>
      leaves c16 [(1, 0x00F0)] [] p.1 [(1, p.2)]) = true ∧
    leaves c32 [(1, 0xFFFF0000), (2, 0x00FFFF00)] [] 0x1621 [(1, 0xFF00FF00)] = true ∧
    leaves c64 [(1, 0x0123456789ABCDEF), (2, 0)] [] 0x1321 [(1, 0xFEDCBA9876543210)] = true ∧
    leaves c16 [(3, 0x0006)] [] 0x1A30 [(0, 0x0006)] = true ∧
    leaves c16 [(1, 0xFFFC)] [] 0x1810 [(0, 0x0100)] = true ∧
    leaves c16 [] [] 0x1A01 [(1, 0x0102)] = true := by decide

/-- One row of 2.2, register form: word, `x1` before, `x2`, `x1` after. -/
def arith (l : List (Nat × Nat × Nat × Nat)) : Bool :=
  l.all fun p => leaves c16 [(1, p.2.1), (2, p.2.2.1)] [] p.1 [(1, p.2.2.2), (2, p.2.2.1), (0, 0x0102)]

theorem test_add_sub : arith [(0x2021, 0xFFFF, 1, 0), (0x2021, 0x7FFF, 1, 0x8000), (0x2121, 0, 1, 0xFFFF),
    (0x2121, 5, 5, 0)] = true := by decide

theorem test_shifts : arith [(0x2221, 0x8001, 1, 2), (0x2221, 1, 0xF, 0x8000), (0x2221, 1, 0x10, 0),
    (0x2221, 0xFFFF, 0xFFFF, 0), (0x2321, 0x8000, 0xF, 1), (0x2321, 0x8000, 0x10, 0), (0x2321, 0xFFFF, 0, 0xFFFF),
    (0x2421, 0x8000, 1, 0xC000), (0x2421, 0x8000, 0x10, 0xFFFF), (0x2421, 0x4000, 0x14, 0), (0x2421, 0x7FFF, 1, 0x3FFF),
    (0x2421, 0xFFFF, 0x8000, 0xFFFF)] = true := by decide

theorem test_mul_div_mod : arith [(0x2521, 0xFF, 0x101, 0xFFFF), (0x2521, 0x100, 0x100, 0), (0x2521, 0xFFFF, 0xFFFF, 1),
    (0x2621, 0xFFFE, 3, 0x5554), (0x2621, 7, 8, 0), (0x2721, 0xFFFE, 3, 2), (0x2721, 7, 8, 7),
    (0x2721, 0x8000, 0xFFFF, 0x8000)] = true := by decide

theorem test_arithmetic_stops :
    faults (step (start c16 [(1, 5), (2, 0)] [] 0x2621)) (.divideByZero 0x2621#16) = true ∧
    faults (step (start c16 [(1, 5), (2, 0)] [] 0x2721)) (.divideByZero 0x2721#16) = true ∧
    faults (step (start c16 [(1, 5)] [] 0x2E01)) (.divideByZero 0x2E01#16) = true ∧
    faults (step (start c16 [(1, 5)] [] 0x2F01)) (.divideByZero 0x2F01#16) = true ∧
    faults (step (start c16NoMul [(1, 5), (2, 5)] [] 0x2521)) (.noMultiplier 0x2521#16) = true ∧
    faults (step (start c16NoMul [(1, 5), (2, 0)] [] 0x2621)) (.noMultiplier 0x2621#16) = true ∧
    faults (step (start c16NoMul [(1, 5)] [] 0x2F31)) (.noMultiplier 0x2F31#16) = true := by decide

theorem test_literal_forms : ([(0x28F1, 0xFFF8, 7), (0x2801, 7, 7), (0x2911, 0, 0xFFFF), (0x2A41, 0x0123, 0x1230),
    (0x2B41, 0x1234, 0x0123), (0x2CF1, 0x8000, 0xFFFF), (0x2DA1, 0x1999, 0xFFFA), (0x2DA1, 0x199A, 4),
    (0x2EA1, 0x04D2, 0x007B), (0x2FA1, 0x04D2, 4)].all fun p =>
      leaves c16 [(1, p.2.1)] [] p.1 [(1, p.2.2)]) = true := by decide

theorem test_arithmetic_widths_and_pc :
    leaves c32 [(1, 0xFFFFFFFF), (2, 2)] [] 0x2021 [(1, 1)] = true ∧
    leaves c32 [(1, 0x80000000), (2, 0x1F)] [] 0x2421 [(1, 0xFFFFFFFF)] = true ∧
    leaves c32 [(1, 0xFFFF), (2, 0x10)] [] 0x2221 [(1, 0xFFFF0000)] = true ∧
    leaves c64 [(1, 0xFFFFFFFFFFFFFFFF), (2, 0x100000000)] [] 0x2621 [(1, 0xFFFFFFFF)] = true ∧
    leaves c16 [(1, 3)] [] 0x2211 [(1, 0x18)] = true ∧
    leaves c16 [] [] 0x2820 [(0, 0x0104)] = true ∧
    leaves c16 [(1, 1)] [] 0x2001 [(1, 0x0103)] = true := by decide

/-- The table of 2.3: for each `F`, the value written for the five operand pairs. -/
theorem test_comparison : ([(0x3021, [0, 0, 0, 0, 0]), (0x3121, [0, 1, 0, 0, 1]), (0x3221, [1, 0, 0, 1, 0]),
    (0x3321, [1, 1, 0, 1, 1]), (0x3421, [0, 0, 0, 0, 0]), (0x3521, [0, 1, 0, 0, 1]), (0x3621, [0, 0, 1, 0, 0]),
    (0x3721, [0, 1, 1, 0, 1]), (0x3821, [1, 1, 1, 1, 1]), (0x3921, [1, 0, 1, 1, 0]), (0x3A21, [0, 1, 1, 0, 1]),
    (0x3B21, [0, 0, 1, 0, 0]), (0x3C21, [1, 1, 1, 1, 1]), (0x3D21, [1, 0, 1, 1, 0]), (0x3E21, [1, 1, 0, 1, 1]),
    (0x3F21, [1, 0, 0, 1, 0])].all fun p =>
      (List.zip [(0xFFFF, 1), (5, 5), (1, 0xFFFF), (0x8000, 0x7FFF), (0, 0)] p.2).all fun q =>
        leaves c16 [(1, q.1.1), (2, q.1.2)] [] p.1 [(1, q.2), (2, q.1.2)]) = true := by decide

theorem test_comparison_widths_and_pc :
    leaves c32 [(1, 0x80000000), (2, 1)] [] 0x3221 [(1, 1)] = true ∧
    leaves c32 [(1, 0x80000000), (2, 1)] [] 0x3621 [(1, 0)] = true ∧
    leaves c16 [(1, 0x0102)] [] 0x3910 [(0, 0)] = true := by decide

/-- 2.4 at address 0100. -/
theorem test_jc : ([(0x8103, 1, 0x0108), (0x8103, 0, 0x0102), (0x81FD, 0x8000, 0x00FC), (0x8100, 1, 0x0102),
    (0x81FF, 1, 0x0100), (0x8180, 1, 0x0002), (0x817F, 1, 0x0200), (0x8004, 0, 0x010A)].all fun p =>
      leaves c16 [(1, p.2.1)] [] p.1 [(0, p.2.2), (1, p.2.1)]) = true := by decide

/-- 2.4 at the ends of the address space, and on ASS16/32. -/
theorem test_jc_wraps : leaves (config .w16 true .little 0x0010) [(1, 1)] [] 0x8180 [(0, 0xFF12)] = true ∧
    leaves (config .w16 true .big 0xFFF0) [(1, 1)] [] 0x817F [(0, 0x00F0)] = true ∧
    leaves c32 [(1, 0x00010000)] [] 0x8103 [(0, 0x108)] = true ∧
    leaves (config .w32 true .big 0x00010000) [(1, 1)] [] 0x81FD [(0, 0x0000FFFC)] = true := by decide

/-- 2.5 at address 0004. -/
theorem test_jal : ([(0x9053, 0x0006, 0x0020, 0x0020), (0x9055, 0x0A0A, 0x0006, 0x0006), (0x9050, 0x0A0A, 0x0020, 0x0020),
    (0x9003, 0x0006, 0x0020, 0x0006), (0x9000, 0x0A0A, 0x0020, 0x0006)].all fun p =>
      leaves (config .w16 true .little 4) [(3, 0x0A0A), (5, 0x0020)] [] p.1
        [(3, p.2.1), (5, p.2.2.1), (0, p.2.2.2)]) = true := by decide

theorem test_jal_wraps_and_reserved :
    leaves (config .w32 true .little 0xFFFFFFFE) [(5, 0x12345678)] [] 0x9053 [(3, 0), (0, 0x12345678)] = true ∧
    faults (step (start c16 [(5, 0x20)] [] 0x9153)) (.reservedBits 0x9153#16) = true ∧
    faults (step (start c16 [(5, 0x20)] [] 0x9253)) (.reservedBits 0x9253#16) = true ∧
    faults (step (start c16 [(5, 0x20)] [] 0x9753)) (.reservedBits 0x9753#16) = true := by decide

/-- 2.6 on the three word sizes, and on R0. -/
theorem test_subword :
    ([(0x9901, 0xCD), (0x9911, 0xAB), (0x9A01, 0xABCD), (0x9801, 0xABCD), (0x9A11, 0xAB), (0x9811, 0xAB), (0x9921, 0),
      (0x9FF1, 0), (0x9F01, 0xABCD)].all fun p => leaves c16 [(1, 0xABCD)] [] p.1 [(1, p.2)]) = true ∧
    ([(0x9941, 0), (0x9A11, 0x2233), (0x9A31, 0x11), (0x9B11, 0x112233), (0x9811, 0x112233)].all fun p =>
      leaves c32 [(1, 0x11223344)] [] p.1 [(1, p.2)]) = true ∧
    ([(0x9971, 0x11), (0x9981, 0), (0x9C41, 0x11223344), (0x9B21, 0x445566), (0x9F11, 0x11223344556677),
      (0x9801, 0x1122334455667788)].all fun p => leaves c64 [(1, 0x1122334455667788)] [] p.1 [(1, p.2)]) = true ∧
    leaves (config .w16 true .little 0x1234) [] [] 0x9900 [(0, 0x36)] = true := by decide

/-- 2.7, reads. -/
theorem test_srr : ([(0xA100, 0), (0xA101, 16), (0xA104, 0), (0xA106, 1024), (0xA107, 1)].all fun p =>
      leaves c16 [] [] p.1 [(1, p.2)]) = true ∧
    leaves c64 [] [] 0xA101 [(1, 64)] = true ∧ leaves c16NoMul [] [] 0xA107 [(1, 0)] = true ∧
    next (step (start c16 [] [] 0xA105)) (fun t => t.draws == 1 && t.retired == 1) = true := by decide

theorem test_srr_stops : ([0xA103, 0xA108, 0xA109, 0xA10A, 0xA10B, 0xA1BF, 0xA1C0, 0xA1FF].all fun iw =>
    faults (step (start c16 [] [] iw)) (.srAccess (BitVec.ofNat 16 iw))) = true := by decide

/-- 2.7, writes. -/
theorem test_srw :
    next (step (start c16 [(1, 0xBEEF)] [] 0xB102)) (fun t => t.ivt.toNat == 0xBEEF && t.retired.toNat == 1) = true ∧
    next (step (start c16 [(1, 0)] [] 0xB103)) (fun t => !t.halted && t.retired.toNat == 1) = true ∧
    next (step (start c16 [(1, 1)] [] 0xB103)) (fun t => t.halted && t.retired.toNat == 1 && t.x 0 == 0x0102) = true ∧
    next (step (start c16 [(1, 0x10)] [] 0xB104)) (fun t => t.retired.toNat == 0x11) = true ∧
    next (step (start c16 [(1, 0xFFFF)] [] 0xB104)) (fun t => t.retired.toNat == 0) = true ∧
    next (step (start c16 [(1, 0x1234)] [] 0xB105)) (fun t => t.cycles.toNat == 0x1234) = true ∧
    next (step (start c16 [(1, 0x1234)] [] 0xB10A)) (fun t => t.out == [0x34#8]) = true ∧
    next (step (start c16 [] [] 0xB00A)) (fun t => t.out == [0x02#8]) = true := by decide

theorem test_srw_stops : ([0xB100, 0xB101, 0xB106, 0xB107, 0xB108, 0xB1C0, 0xB1FF].all fun iw =>
      faults (step (start c16 [(1, 0)] [] iw)) (.srAccess (BitVec.ofNat 16 iw))) = true ∧
    ([0x0002, 0x0003, 0x8001].all fun v =>
      faults (step (start c16 [(1, v)] [] 0xB103)) (.sr3ReservedBits v)) = true := by decide

/-- 2.8. -/
theorem test_si : ([(0xC121, 1, 0x12), (0xCFF1, 1, 0xFF), (0xC80F, 15, 0x80), (0xC200, 0, 0x20), (0xC210, 0, 0x21)].all
      fun p => leaves c16 [] [] p.1 [(p.2.1, p.2.2)]) = true ∧
    leaves c64 [(1, 0xFFFFFFFFFFFFFFFF)] [] 0xCFF1 [(1, 0xFF)] = true := by decide

/-- 2.9, the eight source forms: word, `x1` after, `x2` after. -/
theorem test_xf_source_forms : ([(0x4021, 0x40, 0x40), (0x4821, 0x40, 0x42), (0x5021, 0x3E, 0x3E), (0x5821, 0x40, 0x3E),
    (0x6021, 0x2222, 0x40), (0x6821, 0x2222, 0x42), (0x7021, 0x1111, 0x3E), (0x7821, 0x2222, 0x3E)].all fun p =>
      leaves c16 [(1, 0xAAAA), (2, 0x40)] [(0x3E, 0x1111), (0x40, 0x2222), (0x42, 0x3333)] p.1
        [(1, p.2.1), (2, p.2.2)]) = true := by decide

/-- 2.9, the eight destination forms: word, `x1` after, the words at 3E and 40 after. -/
theorem test_xf_destination_forms : ([(0x4021, 0x5555, 1, 2), (0x4121, 0x5557, 1, 2), (0x4221, 0x5555, 1, 2),
    (0x4321, 0x5553, 1, 2), (0x4421, 0x40, 1, 0x5555), (0x4521, 0x42, 1, 0x5555), (0x4621, 0x3E, 0x5555, 2),
    (0x4721, 0x3E, 1, 0x5555)].all fun p =>
      next (step (start c16 [(1, 0x40), (2, 0x5555)] [(0x3E, 1), (0x40, 2)] p.1)) fun t =>
        t.x 1 == p.2.1 && t.x 2 == 0x5555 && wordAt t 0x3E == some p.2.2.1 && wordAt t 0x40 == some p.2.2.2) = true := by
  decide

/-- 2.9, `S = D`. -/
theorem test_xf_same_register : ([(0x4011, 0x40), (0x4111, 0x42), (0x4211, 0x40), (0x4311, 0x3E), (0x4811, 0x40),
    (0x5011, 0x3E), (0x5811, 0x40), (0x4911, 0x42), (0x5211, 0x3E), (0x4B11, 0x3E), (0x6811, 0x2222), (0x5511, 0x40),
    (0x4411, 0x40)].all fun p => leaves c16 [(1, 0x40)] [(0x40, 0x2222)] p.1 [(1, p.2)]) = true ∧
    next (step (start c16 [(1, 0x40)] [] 0x4611)) (fun t => t.x 1 == 0x3E && wordAt t 0x3E == some 0x40) = true ∧
    next (step (start c16 [(1, 0x40)] [] 0x5511)) (fun t => wordAt t 0x3E == some 0x3E) = true := by decide

/-- 2.9, memory to memory and the other word sizes. -/
theorem test_xf_widths :
    next (step (start c16 [(1, 0x40), (2, 0x60)] [(0x60, 0x7777)] 0x7E21))
      (fun t => wordAt t 0x3E == some 0x7777 && t.x 1 == 0x3E && t.x 2 == 0x5E) = true ∧
    next (step (start c32 [(1, 0x40), (2, 0x60)] [(0x60, 0x76543210)] 0x6D21))
      (fun t => wordAt t 0x40 == some 0x76543210 && t.x 1 == 0x44 && t.x 2 == 0x64) = true ∧
    next (step (start c64 [(15, 0x80), (1, 0x12)] [] 0x461F))
      (fun t => t.x 15 == 0x78 && wordAt t 0x78 == some 0x12) = true ∧
    leaves c64 [(15, 0x78)] [(0x78, 0x1122334455667788)] 0x68F2 [(2, 0x1122334455667788), (15, 0x80)] = true := by decide

/-- 2.9, R0 as an operand. -/
theorem test_xf_pc :
    leaves c16 [] [(0x0102, 0xBEEF)] 0x6801 [(1, 0xBEEF), (0, 0x0104)] = true ∧
    leaves (config .w32 true .big 0x0102) [] [(0x0104, 0xDEADBEEF)] 0x6801 [(1, 0xDEADBEEF), (0, 0x0108)] = true ∧
    leaves c16 [(15, 0x7E)] [(0x7E, 0x0206)] 0x68F0 [(0, 0x0206), (15, 0x80)] = true ∧
    leaves c16 [] [] 0x4100 [(0, 0x0104)] = true ∧ leaves c16 [] [] 0x4300 [(0, 0x0100)] = true := by decide

/-- An ASS16/16 whose upper half of the address space is not mapped. -/
abbrev c16Low : Config := { c16 with mapped := [⟨0, 0x8000⟩] }

/-- 2.9, stops and wrap-around. -/
theorem test_xf_stops :
    faults (step (start c16 [(2, 0x41)] [] 0x6021)) (.misaligned .load 0x41) = true ∧
    faults (step (start c32 [(2, 0x42)] [] 0x6021)) (.misaligned .load 0x42) = true ∧
    faults (step (start c32 [] [] 0x6801)) (.misaligned .load 0x0102) = true ∧
    faults (step (start c16Low [(1, 0x8000), (2, 0x1234)] [] 0x4421)) (.unmapped .store 0x8000) = true ∧
    faults (step (start c16 [(2, 0x40)] [] 0x6021)) (.uninitRead .load 0x40) = true ∧
    next (step (start c16 [(1, 0), (2, 0x1234)] [] 0x4621))
      (fun t => t.x 1 == 0xFFFE && wordAt t 0xFFFE == some 0x1234) = true ∧
    leaves c16 [(2, 0xFFFE)] [(0xFFFE, 0x9999)] 0x6821 [(1, 0x9999), (2, 0)] = true := by decide

/-- 2.10: unassigned words stop, and words beside them do not. -/
theorem test_unassigned : ([0x0000, 0x0FFF, 0xD000, 0xE123, 0xFFFF].all fun iw =>
      faults (step (start c16 [] [] iw)) (.reservedOpcode (BitVec.ofNat 16 iw))) = true ∧
    leaves c16 [] [] 0x90FF [(15, 0x0102), (0, 0x0102)] = true ∧ leaves c16 [] [] 0x9800 [(0, 0x0102)] = true ∧
    leaves c16 [] [] 0x1000 [(0, 0)] = true := by decide

/-- 2.11: fetch. -/
theorem test_fetch :
    faults (step (State.resetWith (config .w16 true .little 0x0101) (PowerOn.named .w16))) (.misaligned .fetch 0x0101) =
      true ∧
    faults (step (State.resetWith { c16Low with resetPc := 0x8000#16 } (PowerOn.named .w16)))
      (.unmapped .fetch 0x8000) = true ∧
    faults (step State.reset) (.uninitRead .fetch 0x0100) = true ∧
    leaves (config .w32 true .big 0x0102) [] [] 0xC011 [(1, 1), (0, 0x0104)] = true ∧
    leaves (config .w16 true .little 0xFFFE) [] [] 0xC011 [(1, 1), (0, 0)] = true := by decide

/-! ### The state after reset and the host's placing of a word -/

theorem test_reset : State.reset.x 0 = 0x0100 ∧ State.reset.retired.toNat = 0 ∧ State.reset.cycles.toNat = 0 ∧
    State.reset.halted = false ∧ State.reset.out = [] ∧ State.reset.Inv := by decide

theorem test_withFetchWord : next (step (State.reset.withFetchWord 16 0xC051)) (fun t => t.x 1 == 5) = true := by decide

/-! ### Witnesses: for every statement with hypotheses, concrete values that meet them together, with
the boundary values of each clause -/

/-- The state after a step, or the state itself where the step stops. -/
def after (s : State) : State :=
  match step s with
  | .next t => t
  | .fault _ => s
  | .refused _ => s

/-- The state after an instruction, or the state itself where it stops. -/
def afterExec (i : Instr) (s : State) : State :=
  match exec i s with
  | .next t => t
  | .fault _ => s
  | .refused _ => s

/-- The memory after a word store, or the memory itself where it stops. -/
def stored (c : Config) (m : Memory) (a v : Word c.width) : Memory :=
  match storeWord c m a v with
  | .ok m' => m'
  | .error _ => m

/-- `x1 = 5`, `x2 = 3`, `x3 = 0`, SI R1, 5 at the program counter. -/
abbrev s0 : State := start c16 [(1, 5), (2, 3), (3, 0)] [] 0xC051

/-- The same at the top of the address space. -/
abbrev sTop : State := start (config .w16 true .big 0xFFFE) [(1, 1)] [] 0xC051

theorem witness_DecodeInvertsEncode : WellFormed (.subword 1 15 7) ∧ WellFormed (.jc 1 (-128)) ∧
    WellFormed (.srw 255 1) := by decide

theorem witness_EveryWordMatchesExactlyOneTableRow :
    0x1621#16 &&& (Instr.bitXor 0 0).row.mask = (Instr.bitXor 0 0).row.pattern := by decide

theorem witness_ArithmeticWords : (15 : Nat) < 16 ∧ encode (.modImm 1 15) = 0x2FF1#16 := by decide

theorem witness_OtherFormatWords :
    ((-128 : Int) ≤ -128 ∧ (-128 : Int) ≤ 127 ∧ encode (.jc 1 (-128)) = 0x8180#16) ∧
    ((-128 : Int) ≤ 127 ∧ (127 : Int) ≤ 127 ∧ encode (.jc 1 127) = 0x817F#16) ∧
    ((15 : Nat) < 16 ∧ (7 : Nat) < 8 ∧ encode (.subword 1 15 7) = 0x9FF1#16) ∧
    ((255 : Nat) < 256 ∧ encode (.srr 1 255) = 0xA1FF#16 ∧ encode (.srw 255 1) = 0xB1FF#16 ∧
      encode (.si 1 255) = 0xCFF1#16) := by decide

theorem witness_StepRunsDecodedInstruction : s0.halted = false ∧ s0.x Reg.pc % 2 = 0 ∧
    (∀ k, k < 2 → isMapped s0.cfg ((s0.x Reg.pc + k) % 2 ^ s0.W) = true) ∧
    Memory.getAll s0.mem (addresses s0.pc 2) = some (bytesOf s0.cfg.byteOrder 2 0xC051#16) ∧
    decodeWord 0xC051#16 = .si 1 5 ∧ WellFormed (.si 1 5) := by decide

theorem witness_StepRunsDecodedInstruction_at_top : sTop.halted = false ∧ sTop.x Reg.pc % 2 = 0 ∧
    (∀ k, k < 2 → isMapped sTop.cfg ((sTop.x Reg.pc + k) % 2 ^ sTop.W) = true) ∧
    Memory.getAll sTop.mem (addresses sTop.pc 2) = some (bytesOf sTop.cfg.byteOrder 2 0xC051#16) := by decide

theorem witness_HaltedCoreTakesNoStep : { s0 with halted := true }.halted = true := rfl

/-- The state after reset of a machine. -/
abbrev resetOf (c : Config) : State := State.resetWith c (PowerOn.named c.width)

/-- The byte after the first is not mapped. -/
abbrev sHalf : State := resetOf { c16 with mapped := [⟨0, 0x8001⟩], resetPc := 0x8000#16 }

/-- The first byte of the word at the program counter is there, the second is not. -/
abbrev sOneByte : State := { s0 with mem := [(0x0100, 0x51#8)] }

theorem witness_FetchStops_misaligned : (resetOf (config .w16 true .little 0x0101)).halted = false ∧
    (resetOf (config .w16 true .little 0x0101)).x Reg.pc % 2 = 1 := by decide

theorem witness_FetchStops_unmapped : sHalf.halted = false ∧ sHalf.x Reg.pc % 2 = 0 ∧
    (1 < 2 ∧ isMapped sHalf.cfg ((sHalf.x Reg.pc + 1) % 2 ^ sHalf.W) = false) := by decide

theorem witness_FetchStops_uninitRead : sOneByte.halted = false ∧ sOneByte.x Reg.pc % 2 = 0 ∧
    (∀ k, k < 2 → isMapped sOneByte.cfg ((sOneByte.x Reg.pc + k) % 2 ^ sOneByte.W) = true) ∧
    (1 < 2 ∧ Memory.get sOneByte.mem ((sOneByte.x Reg.pc + 1) % 2 ^ sOneByte.W) = none) := by decide

theorem witness_PcAdvancesUnlessWritten : sTop.halted = false ∧ fetchInsn sTop = .ok 0xC051#16 ∧
    step sTop = .next (after sTop) ∧ Reg.pc ∉ writtenRegs (decodeWord 0xC051#16) :=
  ⟨rfl, rfl, rfl, by decide⟩

theorem witness_StepCountsInstruction_other : s0.halted = false ∧ fetchInsn s0 = .ok 0xC051#16 ∧
    step s0 = .next (after s0) ∧ ∀ r, decodeWord 0xC051#16 ≠ .srw 4 r :=
  ⟨rfl, rfl, rfl, by decide⟩

/-- SRW SR4, R1 with `x1 = FFFF` at the program counter. -/
abbrev sCount : State := start c16 [(1, 0xFFFF)] [] 0xB104

theorem witness_StepCountsInstruction_write : sCount.halted = false ∧ fetchInsn sCount = .ok 0xB104#16 ∧
    step sCount = .next (after sCount) ∧ decodeWord 0xB104#16 = .srw 4 1 :=
  ⟨rfl, rfl, rfl, rfl⟩

/-- HALT with `x1 = 1` at the program counter. -/
abbrev sHalt : State := start c16 [(1, 1)] [] 0xB103

theorem witness_CoreHaltsOnlyByWritingSr3 : sHalt.halted = false ∧ step sHalt = .next (after sHalt) ∧
    (after sHalt).halted = true :=
  ⟨rfl, rfl, rfl⟩

theorem witness_MultiplyDivideModulo : s0.cfg.hasMul = true ∧ s0.x 2 ≠ 0 ∧ sTop.cfg.hasMul = true ∧ sTop.x 1 = 1 := by
  decide

theorem witness_LiteralAddSubtractShift : (0 : Nat) < 16 ∧ (15 : Nat) < 16 := by decide

theorem witness_LiteralMultiplyDivideModulo : s0.cfg.hasMul = true ∧ (15 : Nat) < 16 ∧ (15 : Nat) ≠ 0 := by decide

theorem witness_NoMultiplierStops : (start c16NoMul [(1, 5)] [] 0x2501).cfg.hasMul = false := by decide

theorem witness_DivideByZeroStops : s0.cfg.hasMul = true ∧ s0.x 3 = 0 := by decide

theorem witness_LiteralFormsAgreeWithRegisterForms : (3 : Nat) < 16 ∧ s0.x 2 = 3 ∧ s0.cfg.hasMul = true ∧
    (3 : Nat) ≠ 0 := by decide

/-- F = 14, Less/Equal, of -1 and 1: the internal test is false, the final test true. -/
theorem witness_ComparisonWritesFinalTest_true :
    (False ↔ ((14 : Fin 16).val.testBit 0 = true ∧ sCount.x 1 = s0.x 1) ∨ ((14 : Fin 16).val.testBit 1 = true ∧
      if (14 : Fin 16).val.testBit 2 = true then (sCount.reg 1).toInt > (sTop.reg 1).toInt else sCount.x 1 > sTop.x 1)) ∧
    (True ↔ if (14 : Fin 16).val.testBit 3 = true then ¬ False else False) := by decide

/-- F = 1, Equal, of 5 and 3: both tests are false. -/
theorem witness_ComparisonWritesFinalTest_false :
    (False ↔ ((1 : Fin 16).val.testBit 0 = true ∧ s0.x 1 = s0.x 2) ∨ ((1 : Fin 16).val.testBit 1 = true ∧
      if (1 : Fin 16).val.testBit 2 = true then (s0.reg 1).toInt > (s0.reg 2).toInt else s0.x 1 > s0.x 2)) ∧
    (False ↔ if (1 : Fin 16).val.testBit 3 = true then ¬ False else False) := by decide

theorem witness_ConditionalBranches : (-128 : Int) ≤ -128 ∧ (-128 : Int) ≤ 127 ∧ (127 : Int) ≤ 127 ∧ s0.x 1 ≠ 0 ∧
    s0.x 3 = 0 := by decide

theorem witness_ReservedJalWordsStop : 0x9100 ≤ (0x9100#16).toNat ∧ (0x9100#16).toNat ≤ 0x97FF ∧
    0x9100 ≤ (0x97FF#16).toNat ∧ (0x97FF#16).toNat ≤ 0x97FF := by decide

theorem witness_UnassignedWordsStop : (0x0FFF#16).toNat < 0x1000 ∧ 0xD000 ≤ (0xD000#16).toNat := by decide

theorem witness_SubwordSelectsBytes : (15 : Nat) < 16 ∧ (7 : Nat) < 8 ∧ 8 * 2 ≥ s0.W ∧ ¬ 8 * 1 ≥ s0.W := by decide

theorem witness_SubwordEqualsItsListing : (15 : Nat) < 16 ∧ (7 : Nat) < 8 := by decide

theorem witness_SmallImmediateLoads : (255 : Nat) < 256 := by decide

theorem witness_SrwEffects : s0.x 3 = 0 ∧ sHalt.x 1 = 1 := by decide

theorem witness_SrAccessStops : 3 ∉ [0, 1, 2, 4, 5, 6, 7] ∧ 255 ∉ [0, 1, 2, 4, 5, 6, 7] ∧ 1 ∉ [2, 3, 4, 5, 10] ∧
    11 ∉ [2, 3, 4, 5, 10] := by decide

theorem witness_Sr3ReservedBitsStop : 2 ≤ s0.x 2 ∧ 2 ≤ sCount.x 1 := by decide

/-- `x1 = 0`, `x2 = 40`, `x5 = 41`, the word 2222 at 40. -/
abbrev sXf : State := start c16 [(1, 0), (2, 0x40), (5, 0x41)] [(0x40, 0x2222)] 0x6821

theorem supplies_direct {s : State} {o : Operand} {v : Word s.cfg.width} (h : o.indirect = false)
    (hv : v = accessValue s o) : Supplies s o v := by
  simp [Supplies, h, hv]

theorem supplies_indirect {s : State} {o : Operand} {v : Word s.cfg.width} (h : o.indirect = true)
    (hv : Accessible s (accessValue s o) ∧ HoldsWord s (accessValue s o) v) : Supplies s o v := by
  simp [Supplies, h, hv]

theorem test_supplies_loaded_word : Supplies sXf ⟨true, .postInc, 2⟩ (0x2222#16) :=
  supplies_indirect rfl (by simp only [Accessible, HoldsWord]; decide)

theorem witness_TransferToRegister : (⟨false, .preDec, 2⟩ : Operand).indirect = false ∧
    Supplies sXf ⟨true, .postInc, 2⟩ (0x2222#16) ∧ Supplies sXf ⟨false, .preDec, 2⟩ (0x3E#16) :=
  ⟨rfl, test_supplies_loaded_word, supplies_direct rfl rfl⟩

theorem witness_TransferToMemory : (⟨true, .preDec, 1⟩ : Operand).indirect = true ∧
    Supplies sXf ⟨true, .postInc, 2⟩ (0x2222#16) ∧
    Accessible sXf (storeValue sXf ⟨true, .preDec, 1⟩ ⟨true, .postInc, 2⟩) ∧
    (storeValue sXf ⟨true, .preDec, 1⟩ ⟨true, .postInc, 2⟩).toNat = 0xFFFE := by
  refine ⟨rfl, test_supplies_loaded_word, ?_, by decide⟩
  simp only [Accessible]; decide

/-- An ASS16/16 of which only the first 8000 bytes, and one more, are mapped. -/
abbrev sXfLow : State := { start { c16 with mapped := [⟨0, 0x8001⟩] } [(1, 0x8000), (2, 0x40)] [] 0x6021 with
  mem := [(0x40, 0x22#8)] }

theorem witness_TransferStops_load :
    ((⟨true, .keep, 5⟩ : Operand).indirect = true ∧ (accessValue sXf ⟨true, .keep, 5⟩).toNat % sXf.WB ≠ 0) ∧
    ((accessValue sXfLow ⟨true, .keep, 1⟩).toNat % sXfLow.WB = 0 ∧ 1 < sXfLow.WB ∧
      isMapped sXfLow.cfg (((accessValue sXfLow ⟨true, .keep, 1⟩).toNat + 1) % 2 ^ sXfLow.W) = false) ∧
    (Accessible sXfLow (accessValue sXfLow ⟨true, .keep, 2⟩) ∧ 1 < sXfLow.WB ∧
      Memory.get sXfLow.mem (((accessValue sXfLow ⟨true, .keep, 2⟩).toNat + 1) % 2 ^ sXfLow.W) = none) := by
  simp only [Accessible]; decide

theorem witness_TransferStops_store :
    (Supplies sXf ⟨false, .keep, 2⟩ (0x40#16) ∧ (⟨true, .keep, 5⟩ : Operand).indirect = true ∧
      (storeValue sXf ⟨true, .keep, 5⟩ ⟨false, .keep, 2⟩).toNat % sXf.WB ≠ 0) ∧
    (Supplies sXfLow ⟨false, .keep, 2⟩ (0x40#16) ∧
      (storeValue sXfLow ⟨true, .keep, 1⟩ ⟨false, .keep, 2⟩).toNat % sXfLow.WB = 0 ∧ 1 < sXfLow.WB ∧
      isMapped sXfLow.cfg (((storeValue sXfLow ⟨true, .keep, 1⟩ ⟨false, .keep, 2⟩).toNat + 1) % 2 ^ sXfLow.W) = false) :=
  ⟨⟨supplies_direct rfl rfl, by decide⟩, supplies_direct rfl rfl, by decide⟩

theorem witness_PushThenPop : (2 : Reg) ≠ 1 ∧ Accessible sXf (sXf.reg 1 - Word.step sXf.cfg.width) := by
  simp only [Accessible]; decide

theorem witness_WordsLieInByteOrder : (2 = 2 ∨ 2 = c32.width.bytes) ∧ 1 < 2 ∧ (4 = 2 ∨ 4 = c32.width.bytes) ∧ 3 < 4 ∧
    memWrite c32 [] (0xFFFFFFFC#32) 4 (0x11223344#32) = .ok (stored c32 [] (0xFFFFFFFC#32) (0x11223344#32)) ∧
    memRead c16 sXf.mem .load (0x40#16) 2 = .ok (0x2222#16) ∧
    exec (.si 1 5) s0 = .next (afterExec (.si 1 5) s0) :=
  ⟨by decide, by decide, by decide, by decide, rfl, rfl, rfl⟩

theorem witness_StoredWordLoadsBack :
    storeWord c16 sXf.mem (0xFFFE#16) (0x1234#16) = .ok (stored c16 sXf.mem (0xFFFE#16) (0x1234#16)) ∧
    0x40 ∉ addresses (w := .w16) (0xFFFE#16) 2 :=
  ⟨rfl, by decide⟩

theorem witness_FetchSeesStoredWord :
    storeWord c64 [] (0x40#64) (0x1122334455667788#64) = .ok (stored c64 [] (0x40#64) (0x1122334455667788#64)) ∧
    storeWord c32 [] (0x40#32) (0x11223344#32) = .ok (stored c32 [] (0x40#32) (0x11223344#32)) :=
  ⟨rfl, rfl⟩

theorem witness_DataAccessStops :
    (0x41#16).toNat % c16.width.bytes ≠ 0 ∧
    ((0x8000#16).toNat % c16Low.width.bytes = 0 ∧ 0 < c16Low.width.bytes ∧
      isMapped c16Low (((0x8000#16).toNat + 0) % 2 ^ c16Low.width.bits) = false) ∧
    ((0x7FFE#16).toNat % c16Low.width.bytes = 0 ∧
      ∀ k, k < c16Low.width.bytes → isMapped c16Low (((0x7FFE#16).toNat + k) % 2 ^ c16Low.width.bits) = true) := by decide

theorem witness_RegistersChangeOnlyAsNamed : exec (.si 1 5) s0 = .next (afterExec (.si 1 5) s0) ∧
    (2 : Reg) ∉ writtenRegs (.si 1 5) :=
  ⟨rfl, by decide⟩

theorem witness_SystemStateChangesOnlyByItsInstruction : exec (.srw 4 1) s0 = .next (afterExec (.srw 4 1) s0) ∧
    ∀ r, Instr.srw 4 1 ≠ .srw 2 r :=
  ⟨rfl, by decide⟩

theorem witness_HaltOutputAndCyclesAreNeverRead : exec (.srw 0 1) s0 = .fault (.srAccess 0xB100#16) ∧
    exec (.si 1 5) s0 = .next (afterExec (.si 1 5) s0) :=
  ⟨rfl, rfl⟩

theorem witness_StepKeepsMemoryCanonical : sXf.Inv ∧ step sXf = .next (after sXf) := ⟨by decide, rfl⟩

theorem witness_ResetMeetsTheInvariant : Memory.wf sXf.mem ∧ Memory.within c16 sXf.mem := by decide

theorem witness_ResetStartsRunningAtResetPc : (15 : Reg) ≠ Reg.pc := by decide

/-- `s0` seen with the other byte order. -/
theorem witness_ByteOrderIsInvisibleOn16Bits_next : s0.cfg.width = .w16 ∧
    ByteSwapped s0 { s0 with cfg := { s0.cfg with byteOrder := .big }, mem := [(0x0100, 0xC0#8), (0x0101, 0x51#8)] } ∧
    step s0 = .next (after s0) := by
  refine ⟨rfl, ⟨[(0x0100, 0xC0#8), (0x0101, 0x51#8)], rfl, fun a => ?_⟩, rfl⟩
  rw [show s0.mem = [(0x0100, 0x51#8), (0x0101, 0xC0#8)] from by decide]
  simp only [Memory.get, cellPartner]
  split_ifs <;> first | rfl | omega

/-- A state whose memory lists nothing stops at its fetch, and is its own exchange. -/
theorem witness_ByteOrderIsInvisibleOn16Bits_fault : State.reset.cfg.width = .w16 ∧
    ByteSwapped State.reset { State.reset with cfg := { State.reset.cfg with byteOrder := .big } } ∧
    step State.reset = .fault (.uninitRead .fetch 0x0100) :=
  ⟨rfl, ⟨[], rfl, fun _ => rfl⟩, rfl⟩

end Sys2Proof.Tests
end

