-- ==== Sys2Proof/Proofs/EncodedWords.lean ====
section
/-! The words of formats BIT, ARI and CMP as numbers (30_encoding.md R93 to R95). Appending fields is
positional arithmetic on their values; each format is computed once from that, for every value of its
opcode field. -/

namespace Sys2Proof

/-- A field appended below shifts the value above it by its width. -/
theorem toNat_append_eq_mul_add {k n : Nat} (hi : BitVec k) (lo : BitVec n) :
    (hi ++ lo).toNat = hi.toNat * 2 ^ n + lo.toNat := by
  rw [BitVec.toNat_append, ← Nat.shiftLeft_add_eq_or_of_lt lo.isLt, Nat.shiftLeft_eq]

@[simp] theorem toNat_regBits (r : Reg) : (regBits r).toNat = r.val :=
  Nat.mod_eq_of_lt r.isLt

/-- A word is the number that its value is. -/
theorem eq_ofNat_of_toNat_eq {w n : Nat} {x : BitVec w} (h : x.toNat = n) : x = BitVec.ofNat w n := by
  rw [← h, BitVec.ofNat_toNat, BitVec.setWidth_eq]

/-- R93. -/
theorem encodeBit_eq_ofNat (tt : BitVec 4) (d s : Reg) :
    encodeBit tt d s = BitVec.ofNat 16 (0x1000 + 256 * tt.toNat + 16 * s.val + d.val) := by
  apply eq_ofNat_of_toNat_eq
  simp only [encodeBit, toNat_append_eq_mul_add, toNat_regBits, BitVec.toNat_ofNat]
  omega

/-- R95. -/
theorem encodeCmp_eq_ofNat (f : BitVec 4) (d s : Reg) :
    encodeCmp f d s = BitVec.ofNat 16 (0x3000 + 256 * f.toNat + 16 * s.val + d.val) := by
  apply eq_ofNat_of_toNat_eq
  simp only [encodeCmp, toNat_append_eq_mul_add, toNat_regBits, BitVec.toNat_ofNat]
  omega

/-- R94 with `SImm` 0. -/
theorem encodeAri_eq_ofNat (op : BitVec 3) (d s : Reg) :
    encodeAri op d s = BitVec.ofNat 16 (0x2000 + 256 * op.toNat + 16 * s.val + d.val) := by
  apply eq_ofNat_of_toNat_eq
  simp only [encodeAri, toNat_append_eq_mul_add, toNat_regBits, BitVec.toNat_ofNat]
  omega

/-- R94 with `SImm` 1: the literal fits its field, so none of it is lost. -/
theorem encodeAriImm_eq_ofNat (op : BitVec 3) (d : Reg) {n : Nat} (hn : n < 16) :
    encodeAriImm op d n = BitVec.ofNat 16 (0x2800 + 256 * op.toNat + 16 * n + d.val) := by
  apply eq_ofNat_of_toNat_eq
  simp only [encodeAriImm, toNat_append_eq_mul_add, toNat_regBits, BitVec.toNat_ofNat]
  omega

/-- Settles O5: the word of format BIT at the sixteen truth tables and of format CMP at the sixteen
values of `F`, in the order of the statement. -/
theorem bitwiseAndComparisonWords : Obligations.BitwiseAndComparisonWords := fun d s =>
  ⟨encodeBit_eq_ofNat 0 d s, encodeBit_eq_ofNat 1 d s, encodeBit_eq_ofNat 2 d s, encodeBit_eq_ofNat 3 d s,
    encodeBit_eq_ofNat 4 d s, encodeBit_eq_ofNat 5 d s, encodeBit_eq_ofNat 6 d s, encodeBit_eq_ofNat 7 d s,
    encodeBit_eq_ofNat 8 d s, encodeBit_eq_ofNat 9 d s, encodeBit_eq_ofNat 10 d s, encodeBit_eq_ofNat 11 d s,
    encodeBit_eq_ofNat 12 d s, encodeBit_eq_ofNat 13 d s, encodeBit_eq_ofNat 14 d s, encodeBit_eq_ofNat 15 d s,
    encodeCmp_eq_ofNat 0 d s, encodeCmp_eq_ofNat 1 d s, encodeCmp_eq_ofNat 2 d s, encodeCmp_eq_ofNat 3 d s,
    encodeCmp_eq_ofNat 4 d s, encodeCmp_eq_ofNat 5 d s, encodeCmp_eq_ofNat 6 d s, encodeCmp_eq_ofNat 7 d s,
    encodeCmp_eq_ofNat 8 d s, encodeCmp_eq_ofNat 9 d s, encodeCmp_eq_ofNat 10 d s, encodeCmp_eq_ofNat 11 d s,
    encodeCmp_eq_ofNat 12 d s, encodeCmp_eq_ofNat 13 d s, encodeCmp_eq_ofNat 14 d s, encodeCmp_eq_ofNat 15 d s⟩

/-- Settles O6: the word of format ARI at the eight operations, in register form and then in literal form. -/
theorem arithmeticWords : Obligations.ArithmeticWords := fun d s _ hn =>
  ⟨encodeAri_eq_ofNat 0 d s, encodeAri_eq_ofNat 1 d s, encodeAri_eq_ofNat 2 d s, encodeAri_eq_ofNat 3 d s,
    encodeAri_eq_ofNat 4 d s, encodeAri_eq_ofNat 5 d s, encodeAri_eq_ofNat 6 d s, encodeAri_eq_ofNat 7 d s,
    encodeAriImm_eq_ofNat 0 d hn, encodeAriImm_eq_ofNat 1 d hn, encodeAriImm_eq_ofNat 2 d hn,
    encodeAriImm_eq_ofNat 3 d hn, encodeAriImm_eq_ofNat 4 d hn, encodeAriImm_eq_ofNat 5 d hn,
    encodeAriImm_eq_ofNat 6 d hn, encodeAriImm_eq_ofNat 7 d hn⟩

end Sys2Proof
end

