-- ==== Sys2Proof/Proofs/SmallImmediate.lean ====
section
/-! Small Immediate (47_small_immediate.md R240): SI is one register write, and its 8-bit constant is
below `2 ^ W` at every word size. -/

namespace Sys2Proof.Machine

/-- A register write has the frame that the claims ask of an instruction with one destination. -/
theorem onlyReg_setReg (s : State) (d : Reg) (v : Word s.cfg.width) : OnlyReg d v.toNat s (s.setReg d v) := by
  refine ⟨?written, ?others, ⟨rfl, rfl, rfl, rfl, rfl, rfl, rfl⟩, fun _ => rfl⟩
  case written => exact congrArg BitVec.toNat (s.reg_setReg_same d v)
  case others =>
    intro j hj
    exact congrArg BitVec.toNat (s.reg_setReg_of_ne (List.ne_of_not_mem_cons hj) v)

/-- An instruction that answers a register write sets that register and nothing else. -/
theorem sets_of_exec_eq_setReg {i : Instr} {s : State} {d : Reg} {v : Word s.cfg.width}
    (h : exec i s = .next (s.setReg d v)) : Sets i d v.toNat s :=
  ⟨s.setReg d v, h, onlyReg_setReg s d v⟩

/-- `W` is at least 16 (R3). -/
theorem WordSize.sixteen_le_bits (w : WordSize) : 16 ≤ w.bits := by
  cases w <;> decide

/-- A literal that fits 16 bits is exact at every word size. -/
theorem toNat_literal {n : Nat} (w : WordSize) (h : n < 2 ^ 16) : (literal w n).toNat = n :=
  have fits : n < 2 ^ w.bits := h.trans_le (Nat.pow_le_pow_right (by decide) (WordSize.sixteen_le_bits w))
  (BitVec.toNat_ofNat n w.bits).trans (Nat.mod_eq_of_lt fits)

theorem exec_si (d : Reg) (imm : Nat) (s : State) :
    exec (.si d imm) s = .next (s.setReg d (literal s.cfg.width imm)) := rfl

/-- Settles O35: SI writes its constant, which no word size truncates. -/
theorem smallImmediateLoads : Obligations.SmallImmediateLoads := by
  intro d imm s himm
  have value : (literal s.cfg.width imm).toNat = imm := toNat_literal s.cfg.width (himm.trans (by decide))
  have sets : Sets (.si d imm) d (literal s.cfg.width imm).toNat s := sets_of_exec_eq_setReg (exec_si d imm s)
  rwa [value] at sets

end Sys2Proof.Machine
end

