-- ==== Sys2Proof/Proofs/RoundTrip.lean ====
section
/-! The decoder and the encoder are inverse (30_encoding.md sections 2 and 6). Both are read as
positional arithmetic on the value of the word: one value per format of the encoder, one equation per
top nibble of the decoder. -/

namespace Sys2Proof

/-! ### Fields as digits of the word's value -/

theorem toNat_field (iw : BitVec 16) (a b : Nat) : (field iw a b).toNat = iw.toNat / 2 ^ b % 2 ^ (a - b) := by
  simp [field, BitVec.extractLsb'_toNat, Nat.shiftRight_eq_div_pow]

theorem val_regField (iw : BitVec 16) (b : Nat) : (regField iw b).val = iw.toNat / 2 ^ b % 16 := by
  simp [regField, Nat.shiftRight_eq_div_pow]

theorem getLsbD_eq_decide_digit {n : Nat} (x : BitVec n) (i : Nat) : x.getLsbD i = decide (x.toNat / 2 ^ i % 2 = 1) :=
  Nat.testBit_eq_decide_div_mod_eq

theorem toNat_getLsbD (iw : BitVec 16) (i : Nat) : (iw.getLsbD i).toNat = iw.toNat / 2 ^ i % 2 := by
  rw [getLsbD_eq_decide_digit]
  rcases Nat.mod_two_eq_zero_or_one (iw.toNat / 2 ^ i) with h | h <;> simp [h]

@[simp] theorem modeOf_bits (m : Mode) : modeOf m.bits = m := by cases m <;> rfl

@[simp] theorem bits_modeOf (b : BitVec 2) : (modeOf b).bits = b := by
  obtain ⟨⟨n, hn⟩⟩ := b
  interval_cases n <;> rfl

theorem toNat_mode_bits (m : Mode) : m.bits.toNat = Machine.Mode.number m := by cases m <;> rfl

theorem toNat_spec (o : Operand) : o.spec.toNat = 4 * o.indirect.toNat + o.mode.bits.toNat := by
  rw [Operand.spec, toNat_append_eq_mul_add, BitVec.toNat_ofBool]
  omega

/-! ### The value of every format's word (R93 to R103) -/

theorem toNat_encodeBit (tt : BitVec 4) (d s : Reg) :
    (encodeBit tt d s).toNat = 0x1000 + 256 * tt.toNat + 16 * s.val + d.val := by
  rw [encodeBit_eq_ofNat, BitVec.toNat_ofNat]
  omega

theorem toNat_encodeCmp (f : BitVec 4) (d s : Reg) :
    (encodeCmp f d s).toNat = 0x3000 + 256 * f.toNat + 16 * s.val + d.val := by
  rw [encodeCmp_eq_ofNat, BitVec.toNat_ofNat]
  omega

theorem toNat_encodeAri (op : BitVec 3) (d s : Reg) :
    (encodeAri op d s).toNat = 0x2000 + 256 * op.toNat + 16 * s.val + d.val := by
  rw [encodeAri_eq_ofNat, BitVec.toNat_ofNat]
  omega

theorem toNat_encodeAriImm (op : BitVec 3) (d : Reg) {n : Nat} (hn : n < 16) :
    (encodeAriImm op d n).toNat = 0x2800 + 256 * op.toNat + 16 * n + d.val := by
  rw [encodeAriImm_eq_ofNat op d hn, BitVec.toNat_ofNat]
  omega

theorem toNat_encode_xf (dst src : Operand) : (encode (.xf dst src)).toNat =
    0x4000 + 8192 * src.indirect.toNat + 2048 * src.mode.bits.toNat + 1024 * dst.indirect.toNat +
      256 * dst.mode.bits.toNat + 16 * src.reg.val + dst.reg.val := by
  simp only [encode, toNat_append_eq_mul_add, toNat_regBits, toNat_spec, BitVec.toNat_ofNat]
  omega

theorem toNat_encode_jc (c : Reg) (off : Int) :
    (encode (.jc c off)).toNat = 0x8000 + 256 * c.val + (off % 256).toNat := by
  simp only [encode, toNat_append_eq_mul_add, toNat_regBits, BitVec.toNat_ofNat, BitVec.toNat_ofInt]
  omega

theorem toNat_encode_jal (l p : Reg) : (encode (.jal l p)).toNat = 0x9000 + 16 * p.val + l.val := by
  simp only [encode, toNat_append_eq_mul_add, toNat_regBits, BitVec.toNat_ofNat]
  omega

theorem toNat_encode_subword (d : Reg) {bi b : Nat} (hbi : bi < 16) (hb : b < 8) :
    (encode (.subword d bi b)).toNat = 0x9800 + 256 * b + 16 * bi + d.val := by
  simp only [encode, toNat_append_eq_mul_add, toNat_regBits, BitVec.toNat_ofNat]
  omega

theorem toNat_encode_srr (r : Reg) {n : Nat} (hn : n < 256) :
    (encode (.srr r n)).toNat = 0xA000 + 256 * r.val + n := by
  simp only [encode, toNat_append_eq_mul_add, toNat_regBits, BitVec.toNat_ofNat]
  omega

theorem toNat_encode_srw (r : Reg) {n : Nat} (hn : n < 256) :
    (encode (.srw n r)).toNat = 0xB000 + 256 * r.val + n := by
  simp only [encode, toNat_append_eq_mul_add, toNat_regBits, BitVec.toNat_ofNat]
  omega

theorem toNat_encode_si (d : Reg) {imm : Nat} (h : imm < 256) :
    (encode (.si d imm)).toNat = 0xC000 + 16 * imm + d.val := by
  simp only [encode, toNat_append_eq_mul_add, toNat_regBits, BitVec.toNat_ofNat]
  omega

/-- Settles O7: the value of each format's word, with the modes by their numbers. -/
theorem otherFormatWords : Obligations.OtherFormatWords := by
  refine ⟨fun c off _ _ => ?jc, fun l p => ?jal, fun d bi b hbi hb => ?subword, fun r n hn => ⟨?srr, ?srw⟩,
    fun d imm h => ?si, fun dst src => ?xf⟩
  case jc => exact eq_ofNat_of_toNat_eq (toNat_encode_jc c off)
  case jal => exact eq_ofNat_of_toNat_eq (toNat_encode_jal l p)
  case subword => exact eq_ofNat_of_toNat_eq (toNat_encode_subword d hbi hb)
  case srr => exact eq_ofNat_of_toNat_eq (toNat_encode_srr r hn)
  case srw => exact eq_ofNat_of_toNat_eq (toNat_encode_srw r hn)
  case si => exact eq_ofNat_of_toNat_eq (toNat_encode_si d h)
  case xf =>
    refine eq_ofNat_of_toNat_eq ?_
    rw [toNat_encode_xf, toNat_mode_bits, toNat_mode_bits]

/-! ### The decoder by the word's top digit (R91) -/

theorem decodeWord_top0 {iw : BitVec 16} (h : (field iw 16 12).toNat = 0) :
    decodeWord iw = .unassigned0 (field iw 12 0) := by simp only [decodeWord, h]

theorem decodeWord_top1 {iw : BitVec 16} (h : (field iw 16 12).toNat = 1) :
    decodeWord iw = decodeBit (field iw 12 8).toNat (regField iw 0) (regField iw 4) := by
  simp only [decodeWord, h]

theorem decodeWord_top2_register {iw : BitVec 16} (h : (field iw 16 12).toNat = 2) (h11 : iw.getLsbD 11 = false) :
    decodeWord iw = decodeAri (field iw 11 8).toNat (regField iw 0) (regField iw 4) := by
  simp only [decodeWord, h, h11, Bool.false_eq_true, if_false]

theorem decodeWord_top2_literal {iw : BitVec 16} (h : (field iw 16 12).toNat = 2) (h11 : iw.getLsbD 11 = true) :
    decodeWord iw = decodeAriImm (field iw 11 8).toNat (regField iw 0) (field iw 8 4).toNat := by
  simp only [decodeWord, h, h11, if_true]

theorem decodeWord_top3 {iw : BitVec 16} (h : (field iw 16 12).toNat = 3) :
    decodeWord iw = decodeCmp (field iw 12 8).toNat (regField iw 0) (regField iw 4) := by
  simp only [decodeWord, h]

/-- Format XF fixes two bits only, so it takes four top digits. -/
theorem decodeWord_top4_to_7 {iw : BitVec 16} (h : (field iw 16 12).toNat / 4 = 1) :
    decodeWord iw = .xf (operandField iw 8 0) (operandField iw 11 4) := by
  have h4 : (field iw 16 12).toNat = 4 ∨ (field iw 16 12).toNat = 5 ∨ (field iw 16 12).toNat = 6 ∨
      (field iw 16 12).toNat = 7 := by omega
  rcases h4 with h | h | h | h <;> simp only [decodeWord, h]

theorem decodeWord_top8 {iw : BitVec 16} (h : (field iw 16 12).toNat = 8) :
    decodeWord iw = .jc (regField iw 8) (field iw 8 0).toInt := by simp only [decodeWord, h]

theorem decodeWord_top9_subword {iw : BitVec 16} (h : (field iw 16 12).toNat = 9) (h11 : iw.getLsbD 11 = true) :
    decodeWord iw = .subword (regField iw 0) (field iw 8 4).toNat (field iw 11 8).toNat := by
  simp only [decodeWord, h, h11, if_true]

theorem decodeWord_top9_jal {iw : BitVec 16} (h : (field iw 16 12).toNat = 9) (h11 : iw.getLsbD 11 = false) :
    decodeWord iw = decodeJal iw := by simp only [decodeWord, h, h11, Bool.false_eq_true, if_false]

theorem decodeWord_top10 {iw : BitVec 16} (h : (field iw 16 12).toNat = 10) :
    decodeWord iw = .srr (regField iw 8) (field iw 8 0).toNat := by simp only [decodeWord, h]

theorem decodeWord_top11 {iw : BitVec 16} (h : (field iw 16 12).toNat = 11) :
    decodeWord iw = .srw (field iw 8 0).toNat (regField iw 8) := by simp only [decodeWord, h]

theorem decodeWord_top12 {iw : BitVec 16} (h : (field iw 16 12).toNat = 12) :
    decodeWord iw = .si (regField iw 0) (field iw 12 4).toNat := by simp only [decodeWord, h]

theorem decodeWord_top13 {iw : BitVec 16} (h : (field iw 16 12).toNat = 13) :
    decodeWord iw = .unassignedD (field iw 12 0) := by simp only [decodeWord, h]

theorem decodeWord_top14 {iw : BitVec 16} (h : (field iw 16 12).toNat = 14) :
    decodeWord iw = .unassignedE (field iw 12 0) := by simp only [decodeWord, h]

theorem decodeWord_top15 {iw : BitVec 16} (h : (field iw 16 12).toNat = 15) :
    decodeWord iw = .unassignedF (field iw 12 0) := by simp only [decodeWord, h]

theorem decodeJal_bit10 {iw : BitVec 16} (h10 : iw.getLsbD 10 = true) :
    decodeJal iw = .jalReservedBit10 (field iw 10 0) := by simp only [decodeJal, h10, if_true]

theorem decodeJal_bit9 {iw : BitVec 16} (h10 : iw.getLsbD 10 = false) (h9 : iw.getLsbD 9 = true) :
    decodeJal iw = .jalReservedBit9 (field iw 9 0) := by
  simp only [decodeJal, h10, h9, Bool.false_eq_true, if_false, if_true]

theorem decodeJal_bit8 {iw : BitVec 16} (h10 : iw.getLsbD 10 = false) (h9 : iw.getLsbD 9 = false)
    (h8 : iw.getLsbD 8 = true) : decodeJal iw = .jalReservedBit8 (field iw 8 0) := by
  simp only [decodeJal, h10, h9, h8, Bool.false_eq_true, if_false, if_true]

theorem decodeJal_clear {iw : BitVec 16} (h10 : iw.getLsbD 10 = false) (h9 : iw.getLsbD 9 = false)
    (h8 : iw.getLsbD 8 = false) : decodeJal iw = .jal (regField iw 0) (regField iw 4) := by
  simp only [decodeJal, h10, h9, h8, Bool.false_eq_true, if_false]

/-! ### Decoding what a format has encoded -/

theorem field_eq_of_toNat {iw : BitVec 16} {a b : Nat} {x : BitVec (a - b)}
    (h : iw.toNat / 2 ^ b % 2 ^ (a - b) = x.toNat) : field iw a b = x :=
  BitVec.eq_of_toNat_eq ((toNat_field iw a b).trans h)

theorem regField_eq_of_val {iw : BitVec 16} {b : Nat} {r : Reg} (h : iw.toNat / 2 ^ b % 16 = r.val) :
    regField iw b = r :=
  Fin.ext ((val_regField iw b).trans h)

theorem operandField_eq {iw : BitVec 16} {b r : Nat} {o : Operand}
    (hi : iw.toNat / 2 ^ (b + 2) % 2 = o.indirect.toNat) (hm : iw.toNat / 2 ^ b % 4 = o.mode.bits.toNat)
    (hr : iw.toNat / 2 ^ r % 16 = o.reg.val) : operandField iw b r = o := by
  have indirect : iw.getLsbD (b + 2) = o.indirect := by
    rw [getLsbD_eq_decide_digit, hi]
    cases o.indirect <;> rfl
  have mode : iw.extractLsb' b 2 = o.mode.bits :=
    BitVec.eq_of_toNat_eq (by rw [BitVec.extractLsb'_toNat, Nat.shiftRight_eq_div_pow]; exact hm)
  rw [operandField, indirect, mode, modeOf_bits, regField_eq_of_val hr]

theorem decodeWord_encodeBit (tt : BitVec 4) (d s : Reg) :
    decodeWord (encodeBit tt d s) = decodeBit tt.toNat d s := by
  have value := toNat_encodeBit tt d s
  have top : (field (encodeBit tt d s) 16 12).toNat = 1 := by rw [toNat_field]; omega
  have table : (field (encodeBit tt d s) 12 8).toNat = tt.toNat := by rw [toNat_field]; omega
  rw [decodeWord_top1 top, table, regField_eq_of_val (r := d) (by omega), regField_eq_of_val (r := s) (by omega)]

theorem decodeWord_encodeCmp (f : BitVec 4) (d s : Reg) :
    decodeWord (encodeCmp f d s) = decodeCmp f.toNat d s := by
  have value := toNat_encodeCmp f d s
  have top : (field (encodeCmp f d s) 16 12).toNat = 3 := by rw [toNat_field]; omega
  have flags : (field (encodeCmp f d s) 12 8).toNat = f.toNat := by rw [toNat_field]; omega
  rw [decodeWord_top3 top, flags, regField_eq_of_val (r := d) (by omega), regField_eq_of_val (r := s) (by omega)]

theorem decodeWord_encodeAri (op : BitVec 3) (d s : Reg) :
    decodeWord (encodeAri op d s) = decodeAri op.toNat d s := by
  have value := toNat_encodeAri op d s
  have top : (field (encodeAri op d s) 16 12).toNat = 2 := by rw [toNat_field]; omega
  have form : (encodeAri op d s).getLsbD 11 = false := by
    rw [getLsbD_eq_decide_digit, decide_eq_false_iff_not]; omega
  have operation : (field (encodeAri op d s) 11 8).toNat = op.toNat := by rw [toNat_field]; omega
  rw [decodeWord_top2_register top form, operation, regField_eq_of_val (r := d) (by omega),
    regField_eq_of_val (r := s) (by omega)]

theorem decodeWord_encodeAriImm (op : BitVec 3) (d : Reg) {n : Nat} (hn : n < 16) :
    decodeWord (encodeAriImm op d n) = decodeAriImm op.toNat d n := by
  have value := toNat_encodeAriImm op d hn
  have top : (field (encodeAriImm op d n) 16 12).toNat = 2 := by rw [toNat_field]; omega
  have form : (encodeAriImm op d n).getLsbD 11 = true := by
    rw [getLsbD_eq_decide_digit, decide_eq_true_iff]; omega
  have operation : (field (encodeAriImm op d n) 11 8).toNat = op.toNat := by rw [toNat_field]; omega
  have operand : (field (encodeAriImm op d n) 8 4).toNat = n := by rw [toNat_field]; omega
  rw [decodeWord_top2_literal top form, operation, operand, regField_eq_of_val (r := d) (by omega)]

theorem decodeWord_encode_xf (dst src : Operand) : decodeWord (encode (.xf dst src)) = .xf dst src := by
  have value := toNat_encode_xf dst src
  have hdi := dst.indirect.toNat_lt
  have hsi := src.indirect.toNat_lt
  have hdm := dst.mode.bits.isLt
  have hsm := src.mode.bits.isLt
  have hdr := dst.reg.isLt
  have hsr := src.reg.isLt
  have top : (field (encode (.xf dst src)) 16 12).toNat / 4 = 1 := by rw [toNat_field]; omega
  rw [decodeWord_top4_to_7 top, operandField_eq (o := dst) (by omega) (by omega) (by omega),
    operandField_eq (o := src) (by omega) (by omega) (by omega)]

/-- The offset is the 8-bit field read as two's complement (D31), which loses nothing from -128 to 127. -/
theorem decodeWord_encode_jc (c : Reg) {off : Int} (h1 : -128 ≤ off) (h2 : off ≤ 127) :
    decodeWord (encode (.jc c off)) = .jc c off := by
  have value := toNat_encode_jc c off
  have top : (field (encode (.jc c off)) 16 12).toNat = 8 := by rw [toNat_field]; omega
  have digits : (field (encode (.jc c off)) 8 0).toNat = (off % 256).toNat := by rw [toNat_field]; omega
  have offset : (field (encode (.jc c off)) 8 0).toInt = off := by
    rw [BitVec.toInt_eq_toNat_cond, digits]
    split <;> omega
  rw [decodeWord_top8 top, offset, regField_eq_of_val (r := c) (by omega)]

theorem decodeWord_encode_jal (l p : Reg) : decodeWord (encode (.jal l p)) = .jal l p := by
  have value := toNat_encode_jal l p
  have top : (field (encode (.jal l p)) 16 12).toNat = 9 := by rw [toNat_field]; omega
  have clear : ∀ i, 8 ≤ i → i < 12 → (encode (.jal l p)).getLsbD i = false := by
    intro i h1 h2
    rw [getLsbD_eq_decide_digit, decide_eq_false_iff_not]
    interval_cases i <;> omega
  rw [decodeWord_top9_jal top (clear 11 (by decide) (by decide)), decodeJal_clear (clear 10 (by decide) (by decide))
    (clear 9 (by decide) (by decide)) (clear 8 (by decide) (by decide)), regField_eq_of_val (r := l) (by omega),
    regField_eq_of_val (r := p) (by omega)]

theorem decodeWord_encode_subword (d : Reg) {bi b : Nat} (hbi : bi < 16) (hb : b < 8) :
    decodeWord (encode (.subword d bi b)) = .subword d bi b := by
  have value := toNat_encode_subword d hbi hb
  have top : (field (encode (.subword d bi b)) 16 12).toNat = 9 := by rw [toNat_field]; omega
  have form : (encode (.subword d bi b)).getLsbD 11 = true := by
    rw [getLsbD_eq_decide_digit, decide_eq_true_iff]; omega
  have index : (field (encode (.subword d bi b)) 8 4).toNat = bi := by rw [toNat_field]; omega
  have count : (field (encode (.subword d bi b)) 11 8).toNat = b := by rw [toNat_field]; omega
  rw [decodeWord_top9_subword top form, index, count, regField_eq_of_val (r := d) (by omega)]

theorem decodeWord_encode_srr (r : Reg) {n : Nat} (hn : n < 256) : decodeWord (encode (.srr r n)) = .srr r n := by
  have value := toNat_encode_srr r hn
  have top : (field (encode (.srr r n)) 16 12).toNat = 10 := by rw [toNat_field]; omega
  have number : (field (encode (.srr r n)) 8 0).toNat = n := by rw [toNat_field]; omega
  rw [decodeWord_top10 top, number, regField_eq_of_val (r := r) (by omega)]

theorem decodeWord_encode_srw (r : Reg) {n : Nat} (hn : n < 256) : decodeWord (encode (.srw n r)) = .srw n r := by
  have value := toNat_encode_srw r hn
  have top : (field (encode (.srw n r)) 16 12).toNat = 11 := by rw [toNat_field]; omega
  have number : (field (encode (.srw n r)) 8 0).toNat = n := by rw [toNat_field]; omega
  rw [decodeWord_top11 top, number, regField_eq_of_val (r := r) (by omega)]

theorem decodeWord_encode_si (d : Reg) {imm : Nat} (h : imm < 256) : decodeWord (encode (.si d imm)) = .si d imm := by
  have value := toNat_encode_si d h
  have top : (field (encode (.si d imm)) 16 12).toNat = 12 := by rw [toNat_field]; omega
  have constant : (field (encode (.si d imm)) 12 4).toNat = imm := by rw [toNat_field]; omega
  rw [decodeWord_top12 top, constant, regField_eq_of_val (r := d) (by omega)]

/-! ### Decoding the words of no instruction: fixed bits above a free field -/

/-- The fixed bits of a word made of a top part and a rest. -/
theorem toNat_append_div {k n : Nat} (hi : BitVec k) (lo : BitVec n) : (hi ++ lo).toNat / 2 ^ n = hi.toNat := by
  rw [toNat_append_eq_mul_add, Nat.mul_comm, Nat.mul_add_div (Nat.two_pow_pos n), Nat.div_eq_of_lt lo.isLt,
    Nat.add_zero]

theorem toNat_append_mod {k n : Nat} (hi : BitVec k) (lo : BitVec n) : (hi ++ lo).toNat % 2 ^ n = lo.toNat := by
  rw [toNat_append_eq_mul_add, Nat.add_comm, Nat.add_mul_mod_self_right, Nat.mod_eq_of_lt lo.isLt]

/-- The free field below the fixed bits is read back whole. -/
theorem field_append {k n : Nat} (hi : BitVec k) (lo : BitVec n) {iw : BitVec 16} (h : iw.toNat = (hi ++ lo).toNat) :
    field iw n 0 = lo :=
  field_eq_of_toNat (by rw [h, Nat.pow_zero, Nat.div_one]; exact toNat_append_mod hi lo)

theorem decodeWord_encode_unassigned0 (low : BitVec 12) :
    decodeWord (encode (.unassigned0 low)) = .unassigned0 low := by
  have fixed : (encode (.unassigned0 low)).toNat / 2 ^ 12 = 0 := toNat_append_div 0b0000#4 low
  have top : (field (encode (.unassigned0 low)) 16 12).toNat = 0 := by rw [toNat_field]; omega
  have rest : field (encode (.unassigned0 low)) 12 0 = low := field_append 0b0000#4 low rfl
  rw [decodeWord_top0 top, rest]

theorem decodeWord_encode_unassignedD (low : BitVec 12) :
    decodeWord (encode (.unassignedD low)) = .unassignedD low := by
  have fixed : (encode (.unassignedD low)).toNat / 2 ^ 12 = 13 := toNat_append_div 0b1101#4 low
  have top : (field (encode (.unassignedD low)) 16 12).toNat = 13 := by rw [toNat_field]; omega
  have rest : field (encode (.unassignedD low)) 12 0 = low := field_append 0b1101#4 low rfl
  rw [decodeWord_top13 top, rest]

theorem decodeWord_encode_unassignedE (low : BitVec 12) :
    decodeWord (encode (.unassignedE low)) = .unassignedE low := by
  have fixed : (encode (.unassignedE low)).toNat / 2 ^ 12 = 14 := toNat_append_div 0b1110#4 low
  have top : (field (encode (.unassignedE low)) 16 12).toNat = 14 := by rw [toNat_field]; omega
  have rest : field (encode (.unassignedE low)) 12 0 = low := field_append 0b1110#4 low rfl
  rw [decodeWord_top14 top, rest]

theorem decodeWord_encode_unassignedF (low : BitVec 12) :
    decodeWord (encode (.unassignedF low)) = .unassignedF low := by
  have fixed : (encode (.unassignedF low)).toNat / 2 ^ 12 = 15 := toNat_append_div 0b1111#4 low
  have top : (field (encode (.unassignedF low)) 16 12).toNat = 15 := by rw [toNat_field]; omega
  have rest : field (encode (.unassignedF low)) 12 0 = low := field_append 0b1111#4 low rfl
  rw [decodeWord_top15 top, rest]

/-- Bits 15 to 11 of a Jump and Link word, reserved or not, are 10010 (R97). -/
theorem decodeWord_of_jal_bits {iw : BitVec 16} (h : iw.toNat / 2 ^ 11 = 0b10010) : decodeWord iw = decodeJal iw := by
  have top : (field iw 16 12).toNat = 9 := by rw [toNat_field]; omega
  have form : iw.getLsbD 11 = false := by rw [getLsbD_eq_decide_digit, decide_eq_false_iff_not]; omega
  exact decodeWord_top9_jal top form

theorem decodeWord_encode_jalReservedBit10 (low : BitVec 10) :
    decodeWord (encode (.jalReservedBit10 low)) = .jalReservedBit10 low := by
  have fixed : (encode (.jalReservedBit10 low)).toNat / 2 ^ 10 = 0b100101 := toNat_append_div 0b100101#6 low
  have bit10 : (encode (.jalReservedBit10 low)).getLsbD 10 = true := by
    rw [getLsbD_eq_decide_digit, decide_eq_true_iff]; omega
  have rest : field (encode (.jalReservedBit10 low)) 10 0 = low := field_append 0b100101#6 low rfl
  rw [decodeWord_of_jal_bits (by omega), decodeJal_bit10 bit10, rest]

theorem decodeWord_encode_jalReservedBit9 (low : BitVec 9) :
    decodeWord (encode (.jalReservedBit9 low)) = .jalReservedBit9 low := by
  have fixed : (encode (.jalReservedBit9 low)).toNat / 2 ^ 9 = 0b1001001 := toNat_append_div 0b1001001#7 low
  have bit10 : (encode (.jalReservedBit9 low)).getLsbD 10 = false := by
    rw [getLsbD_eq_decide_digit, decide_eq_false_iff_not]; omega
  have bit9 : (encode (.jalReservedBit9 low)).getLsbD 9 = true := by
    rw [getLsbD_eq_decide_digit, decide_eq_true_iff]; omega
  have rest : field (encode (.jalReservedBit9 low)) 9 0 = low := field_append 0b1001001#7 low rfl
  rw [decodeWord_of_jal_bits (by omega), decodeJal_bit9 bit10 bit9, rest]

theorem decodeWord_encode_jalReservedBit8 (low : BitVec 8) :
    decodeWord (encode (.jalReservedBit8 low)) = .jalReservedBit8 low := by
  have fixed : (encode (.jalReservedBit8 low)).toNat / 2 ^ 8 = 0b10010001 := toNat_append_div 0b10010001#8 low
  have bit10 : (encode (.jalReservedBit8 low)).getLsbD 10 = false := by
    rw [getLsbD_eq_decide_digit, decide_eq_false_iff_not]; omega
  have bit9 : (encode (.jalReservedBit8 low)).getLsbD 9 = false := by
    rw [getLsbD_eq_decide_digit, decide_eq_false_iff_not]; omega
  have bit8 : (encode (.jalReservedBit8 low)).getLsbD 8 = true := by
    rw [getLsbD_eq_decide_digit, decide_eq_true_iff]; omega
  have rest : field (encode (.jalReservedBit8 low)) 8 0 = low := field_append 0b10010001#8 low rfl
  rw [decodeWord_of_jal_bits (by omega), decodeJal_bit8 bit10 bit9 bit8, rest]

/-! ### Both directions for every instruction -/

theorem fitsOffset_iff {k : Int} : fitsOffset k = true ↔ -128 ≤ k ∧ k ≤ 127 := by simp [fitsOffset]

/-- Settles O1: each constructor is one value of its format's operation field. -/
theorem decodeInvertsEncode : Obligations.DecodeInvertsEncode := by
  intro i h
  cases i with
  | bitFalse d s => exact decodeWord_encodeBit 0 d s
  | bitNor d s => exact decodeWord_encodeBit 1 d s
  | bitNcimpl d s => exact decodeWord_encodeBit 2 d s
  | bitNotd d s => exact decodeWord_encodeBit 3 d s
  | bitNimpl d s => exact decodeWord_encodeBit 4 d s
  | bitNots d s => exact decodeWord_encodeBit 5 d s
  | bitXor d s => exact decodeWord_encodeBit 6 d s
  | bitNand d s => exact decodeWord_encodeBit 7 d s
  | bitAnd d s => exact decodeWord_encodeBit 8 d s
  | bitXnor d s => exact decodeWord_encodeBit 9 d s
  | bitS d s => exact decodeWord_encodeBit 10 d s
  | bitImpl d s => exact decodeWord_encodeBit 11 d s
  | bitD d s => exact decodeWord_encodeBit 12 d s
  | bitCimpl d s => exact decodeWord_encodeBit 13 d s
  | bitOr d s => exact decodeWord_encodeBit 14 d s
  | bitTrue d s => exact decodeWord_encodeBit 15 d s
  | add d s => exact decodeWord_encodeAri 0 d s
  | sub d s => exact decodeWord_encodeAri 1 d s
  | shl d s => exact decodeWord_encodeAri 2 d s
  | shr d s => exact decodeWord_encodeAri 3 d s
  | asr d s => exact decodeWord_encodeAri 4 d s
  | mul d s => exact decodeWord_encodeAri 5 d s
  | div d s => exact decodeWord_encodeAri 6 d s
  | mod d s => exact decodeWord_encodeAri 7 d s
  | addImm d n => exact decodeWord_encodeAriImm 0 d (of_decide_eq_true h)
  | subImm d n => exact decodeWord_encodeAriImm 1 d (of_decide_eq_true h)
  | shlImm d n => exact decodeWord_encodeAriImm 2 d (of_decide_eq_true h)
  | shrImm d n => exact decodeWord_encodeAriImm 3 d (of_decide_eq_true h)
  | asrImm d n => exact decodeWord_encodeAriImm 4 d (of_decide_eq_true h)
  | mulImm d n => exact decodeWord_encodeAriImm 5 d (of_decide_eq_true h)
  | divImm d n => exact decodeWord_encodeAriImm 6 d (of_decide_eq_true h)
  | modImm d n => exact decodeWord_encodeAriImm 7 d (of_decide_eq_true h)
  | cmp d s => exact decodeWord_encodeCmp 0 d s
  | cmpE d s => exact decodeWord_encodeCmp 1 d s
  | cmpG d s => exact decodeWord_encodeCmp 2 d s
  | cmpEG d s => exact decodeWord_encodeCmp 3 d s
  | cmpS d s => exact decodeWord_encodeCmp 4 d s
  | cmpES d s => exact decodeWord_encodeCmp 5 d s
  | cmpGS d s => exact decodeWord_encodeCmp 6 d s
  | cmpEGS d s => exact decodeWord_encodeCmp 7 d s
  | cmpI d s => exact decodeWord_encodeCmp 8 d s
  | cmpEI d s => exact decodeWord_encodeCmp 9 d s
  | cmpGI d s => exact decodeWord_encodeCmp 10 d s
  | cmpEGI d s => exact decodeWord_encodeCmp 11 d s
  | cmpSI d s => exact decodeWord_encodeCmp 12 d s
  | cmpESI d s => exact decodeWord_encodeCmp 13 d s
  | cmpGSI d s => exact decodeWord_encodeCmp 14 d s
  | cmpEGSI d s => exact decodeWord_encodeCmp 15 d s
  | xf dst src => exact decodeWord_encode_xf dst src
  | jc c off =>
    obtain ⟨low, high⟩ := fitsOffset_iff.1 h
    exact decodeWord_encode_jc c low high
  | jal l p => exact decodeWord_encode_jal l p
  | subword d bi b =>
    obtain ⟨hbi, hb⟩ := Bool.and_eq_true_iff.1 h
    exact decodeWord_encode_subword d (of_decide_eq_true hbi) (of_decide_eq_true hb)
  | srr r n => exact decodeWord_encode_srr r (of_decide_eq_true h)
  | srw n r => exact decodeWord_encode_srw r (of_decide_eq_true h)
  | si d imm => exact decodeWord_encode_si d (of_decide_eq_true h)
  | jalReservedBit10 low => exact decodeWord_encode_jalReservedBit10 low
  | jalReservedBit9 low => exact decodeWord_encode_jalReservedBit9 low
  | jalReservedBit8 low => exact decodeWord_encode_jalReservedBit8 low
  | unassigned0 low => exact decodeWord_encode_unassigned0 low
  | unassignedD low => exact decodeWord_encode_unassignedD low
  | unassignedE low => exact decodeWord_encode_unassignedE low
  | unassignedF low => exact decodeWord_encode_unassignedF low

end Sys2Proof
end

