-- ==== Sys2Proof/Proofs/EveryWord.lean ====
section
/-! Every one of the 65536 words (30_encoding.md section 6): what it decodes to is well formed, encodes
back to it and stands in the one row of the opcode table that the word matches. -/

namespace Sys2Proof

/-! ### The groups by their operation field -/

theorem wf_decodeBit (tt : Nat) (d s : Reg) : WellFormed (decodeBit tt d s) := by
  unfold decodeBit; split <;> rfl

theorem wf_decodeAri (op : Nat) (d s : Reg) : WellFormed (decodeAri op d s) := by
  unfold decodeAri; split <;> rfl

theorem wf_decodeAriImm (op : Nat) (d : Reg) {n : Nat} (hn : n < 16) : WellFormed (decodeAriImm op d n) := by
  unfold decodeAriImm; split <;> exact decide_eq_true hn

theorem wf_decodeCmp (f : Nat) (d s : Reg) : WellFormed (decodeCmp f d s) := by
  unfold decodeCmp; split <;> rfl

theorem encode_decodeBit (tt : BitVec 4) (d s : Reg) : encode (decodeBit tt.toNat d s) = encodeBit tt d s := by
  obtain ⟨⟨n, hn⟩⟩ := tt
  interval_cases n <;> rfl

theorem encode_decodeAri (op : BitVec 3) (d s : Reg) : encode (decodeAri op.toNat d s) = encodeAri op d s := by
  obtain ⟨⟨n, hn⟩⟩ := op
  interval_cases n <;> rfl

theorem encode_decodeAriImm (op : BitVec 3) (d : Reg) (n : Nat) :
    encode (decodeAriImm op.toNat d n) = encodeAriImm op d n := by
  obtain ⟨⟨k, hk⟩⟩ := op
  interval_cases k <;> rfl

theorem encode_decodeCmp (f : BitVec 4) (d s : Reg) : encode (decodeCmp f.toNat d s) = encodeCmp f d s := by
  obtain ⟨⟨n, hn⟩⟩ := f
  interval_cases n <;> rfl

/-! ### Encoding what a word decodes to, by the word's top digit -/

/-- The word spells one well-formed instruction, the one that it decodes to. -/
def RoundTrips (iw : BitVec 16) : Prop := WellFormed (decodeWord iw) ∧ encode (decodeWord iw) = iw

/-- A word that decodes to a well-formed instruction of the same value. -/
theorem roundTrips_of_decode {iw : BitVec 16} {i : Instr} (h : decodeWord iw = i) (wf : WellFormed i)
    (value : (encode i).toNat = iw.toNat) : RoundTrips iw :=
  ⟨h ▸ wf, BitVec.eq_of_toNat_eq (h ▸ value)⟩

theorem roundTrips_bit {iw : BitVec 16} (h : (field iw 16 12).toNat = 1) : RoundTrips iw := by
  refine roundTrips_of_decode (decodeWord_top1 h) (wf_decodeBit _ _ _) ?value
  rw [toNat_field] at h
  rw [encode_decodeBit, toNat_encodeBit, toNat_field, val_regField, val_regField]
  omega

theorem roundTrips_cmp {iw : BitVec 16} (h : (field iw 16 12).toNat = 3) : RoundTrips iw := by
  refine roundTrips_of_decode (decodeWord_top3 h) (wf_decodeCmp _ _ _) ?value
  rw [toNat_field] at h
  rw [encode_decodeCmp, toNat_encodeCmp, toNat_field, val_regField, val_regField]
  omega

theorem roundTrips_ari {iw : BitVec 16} (h : (field iw 16 12).toNat = 2) : RoundTrips iw := by
  cases h11 : iw.getLsbD 11 with
  | false =>
    refine roundTrips_of_decode (decodeWord_top2_register h h11) (wf_decodeAri _ _ _) ?registers
    rw [toNat_field] at h
    rw [getLsbD_eq_decide_digit, decide_eq_false_iff_not] at h11
    rw [encode_decodeAri, toNat_encodeAri, toNat_field, val_regField, val_regField]
    omega
  | true =>
    have literal : (field iw 8 4).toNat < 16 := (field iw 8 4).isLt
    refine roundTrips_of_decode (decodeWord_top2_literal h h11) (wf_decodeAriImm _ _ literal) ?literal
    rw [toNat_field] at h
    rw [getLsbD_eq_decide_digit, decide_eq_true_iff] at h11
    rw [encode_decodeAriImm, toNat_encodeAriImm _ _ literal, toNat_field, toNat_field, val_regField]
    omega

theorem roundTrips_xf {iw : BitVec 16} (h : (field iw 16 12).toNat / 4 = 1) : RoundTrips iw := by
  refine roundTrips_of_decode (decodeWord_top4_to_7 h) rfl ?value
  rw [toNat_field] at h
  simp only [toNat_encode_xf, operandField, bits_modeOf, toNat_getLsbD, val_regField, BitVec.extractLsb'_toNat,
    Nat.shiftRight_eq_div_pow]
  omega

theorem roundTrips_jc {iw : BitVec 16} (h : (field iw 16 12).toNat = 8) : RoundTrips iw := by
  have offset : fitsOffset (field iw 8 0).toInt = true :=
    fitsOffset_iff.2 ⟨BitVec.le_toInt _, Int.le_sub_one_of_lt (BitVec.toInt_lt (x := field iw 8 0))⟩
  refine roundTrips_of_decode (decodeWord_top8 h) offset ?value
  have digits : (field iw 8 0).toNat = iw.toNat % 256 := by rw [toNat_field]; omega
  rw [toNat_field] at h
  rw [toNat_encode_jc, val_regField, BitVec.toInt_eq_toNat_cond, digits]
  split <;> omega

theorem roundTrips_subword {iw : BitVec 16} (h : (field iw 16 12).toNat = 9) (h11 : iw.getLsbD 11 = true) :
    RoundTrips iw := by
  have index : (field iw 8 4).toNat < 16 := (field iw 8 4).isLt
  have count : (field iw 11 8).toNat < 8 := (field iw 11 8).isLt
  refine roundTrips_of_decode (decodeWord_top9_subword h h11)
    (Bool.and_eq_true_iff.2 ⟨decide_eq_true index, decide_eq_true count⟩) ?value
  rw [toNat_field] at h
  rw [getLsbD_eq_decide_digit, decide_eq_true_iff] at h11
  rw [toNat_encode_subword _ index count, toNat_field, toNat_field, val_regField]
  omega

/-- Fixed bits above a free field of the word make the word. -/
theorem toNat_append_field {iw : BitVec 16} {k n : Nat} (top : BitVec k) (h : iw.toNat / 2 ^ n = top.toNat) :
    (top ++ field iw n 0).toNat = iw.toNat := by
  rw [toNat_append_eq_mul_add, toNat_field, ← h, Nat.pow_zero, Nat.div_one, Nat.sub_zero, Nat.mul_comm]
  exact Nat.div_add_mod _ _

/-- The three reserved bits are tested from the top, so each reserved row begins with the zeros of the
rows before it (R206). -/
theorem roundTrips_jal {iw : BitVec 16} (h : (field iw 16 12).toNat = 9) (h11 : iw.getLsbD 11 = false) :
    RoundTrips iw := by
  have jal := decodeWord_top9_jal h h11
  have set : ∀ {i}, iw.getLsbD i = true → iw.toNat / 2 ^ i % 2 = 1 := fun hi => by rw [← toNat_getLsbD, hi]; rfl
  have clear : ∀ {i}, iw.getLsbD i = false → iw.toNat / 2 ^ i % 2 = 0 := fun hi => by rw [← toNat_getLsbD, hi]; rfl
  have d11 := clear h11
  rw [toNat_field] at h
  cases h10 : iw.getLsbD 10 with
  | true =>
    have d10 := set h10
    have top : iw.toNat / 2 ^ 10 = 0b100101 := by omega
    exact roundTrips_of_decode (jal.trans (decodeJal_bit10 h10)) rfl (toNat_append_field 0b100101#6 top)
  | false =>
    have d10 := clear h10
    cases h9 : iw.getLsbD 9 with
    | true =>
      have d9 := set h9
      have top : iw.toNat / 2 ^ 9 = 0b1001001 := by omega
      exact roundTrips_of_decode (jal.trans (decodeJal_bit9 h10 h9)) rfl (toNat_append_field 0b1001001#7 top)
    | false =>
      have d9 := clear h9
      cases h8 : iw.getLsbD 8 with
      | true =>
        have d8 := set h8
        have top : iw.toNat / 2 ^ 8 = 0b10010001 := by omega
        exact roundTrips_of_decode (jal.trans (decodeJal_bit8 h10 h9 h8)) rfl (toNat_append_field 0b10010001#8 top)
      | false =>
        have d8 := clear h8
        refine roundTrips_of_decode (jal.trans (decodeJal_clear h10 h9 h8)) rfl ?value
        rw [toNat_encode_jal, val_regField, val_regField]
        omega

theorem roundTrips_srr {iw : BitVec 16} (h : (field iw 16 12).toNat = 10) : RoundTrips iw := by
  have number : (field iw 8 0).toNat < 256 := (field iw 8 0).isLt
  refine roundTrips_of_decode (decodeWord_top10 h) (decide_eq_true number) ?value
  rw [toNat_field] at h
  rw [toNat_encode_srr _ number, toNat_field, val_regField]
  omega

theorem roundTrips_srw {iw : BitVec 16} (h : (field iw 16 12).toNat = 11) : RoundTrips iw := by
  have number : (field iw 8 0).toNat < 256 := (field iw 8 0).isLt
  refine roundTrips_of_decode (decodeWord_top11 h) (decide_eq_true number) ?value
  rw [toNat_field] at h
  rw [toNat_encode_srw _ number, toNat_field, val_regField]
  omega

theorem roundTrips_si {iw : BitVec 16} (h : (field iw 16 12).toNat = 12) : RoundTrips iw := by
  have constant : (field iw 12 4).toNat < 256 := (field iw 12 4).isLt
  refine roundTrips_of_decode (decodeWord_top12 h) (decide_eq_true constant) ?value
  rw [toNat_field] at h
  rw [toNat_encode_si _ constant, toNat_field, val_regField]
  omega

/-- The value of the top digit is the word's value without its low twelve bits. -/
theorem div_of_top {iw : BitVec 16} {n : Nat} (h : (field iw 16 12).toNat = n) : iw.toNat / 2 ^ 12 = n := by
  rw [toNat_field] at h
  omega

/-- Settles O2: sixteen top digits, and under 2 and 9 the bits that choose the format. -/
theorem encodeInvertsDecode : Obligations.EncodeInvertsDecode := by
  intro iw
  change RoundTrips iw
  have bound : (field iw 16 12).toNat < 16 := (field iw 16 12).isLt
  generalize top : (field iw 16 12).toNat = n at bound
  interval_cases n
  · exact roundTrips_of_decode (decodeWord_top0 top) rfl (toNat_append_field 0b0000#4 (div_of_top top))
  · exact roundTrips_bit top
  · exact roundTrips_ari top
  · exact roundTrips_cmp top
  · exact roundTrips_xf (by rw [top])
  · exact roundTrips_xf (by rw [top])
  · exact roundTrips_xf (by rw [top])
  · exact roundTrips_xf (by rw [top])
  · exact roundTrips_jc top
  · cases h11 : iw.getLsbD 11 with
    | true => exact roundTrips_subword top h11
    | false => exact roundTrips_jal top h11
  · exact roundTrips_srr top
  · exact roundTrips_srw top
  · exact roundTrips_si top
  · exact roundTrips_of_decode (decodeWord_top13 top) rfl (toNat_append_field 0b1101#4 (div_of_top top))
  · exact roundTrips_of_decode (decodeWord_top14 top) rfl (toNat_append_field 0b1110#4 (div_of_top top))
  · exact roundTrips_of_decode (decodeWord_top15 top) rfl (toNat_append_field 0b1111#4 (div_of_top top))

/-! ### The rows of the opcode table are disjoint (30_encoding.md section 6) -/

/-- Two rows differ in a bit that both fix. -/
def TableRow.Apart (r q : TableRow) : Prop := r.pattern &&& q.mask ≠ q.pattern &&& r.mask

/-- A word matches one of two rows that differ in a bit that both fix, or neither. -/
theorem TableRow.Apart.not_both {r q : TableRow} (h : r.Apart q) {w : BitVec 16} (hr : w &&& r.mask = r.pattern)
    (hq : w &&& q.mask = q.pattern) : False :=
  h (by rw [← hr, ← hq, BitVec.and_assoc, BitVec.and_assoc, BitVec.and_comm r.mask])

/-- The rows of spec/opcode_table.json, in the order of the constructors. -/
def tableRows : List TableRow :=
  [⟨0x1000#16, 0xFF00#16⟩, ⟨0x1100#16, 0xFF00#16⟩, ⟨0x1200#16, 0xFF00#16⟩, ⟨0x1300#16, 0xFF00#16⟩,
   ⟨0x1400#16, 0xFF00#16⟩, ⟨0x1500#16, 0xFF00#16⟩, ⟨0x1600#16, 0xFF00#16⟩, ⟨0x1700#16, 0xFF00#16⟩,
   ⟨0x1800#16, 0xFF00#16⟩, ⟨0x1900#16, 0xFF00#16⟩, ⟨0x1A00#16, 0xFF00#16⟩, ⟨0x1B00#16, 0xFF00#16⟩,
   ⟨0x1C00#16, 0xFF00#16⟩, ⟨0x1D00#16, 0xFF00#16⟩, ⟨0x1E00#16, 0xFF00#16⟩, ⟨0x1F00#16, 0xFF00#16⟩,
   ⟨0x2000#16, 0xFF00#16⟩, ⟨0x2100#16, 0xFF00#16⟩, ⟨0x2200#16, 0xFF00#16⟩, ⟨0x2300#16, 0xFF00#16⟩,
   ⟨0x2400#16, 0xFF00#16⟩, ⟨0x2500#16, 0xFF00#16⟩, ⟨0x2600#16, 0xFF00#16⟩, ⟨0x2700#16, 0xFF00#16⟩,
   ⟨0x2800#16, 0xFF00#16⟩, ⟨0x2900#16, 0xFF00#16⟩, ⟨0x2A00#16, 0xFF00#16⟩, ⟨0x2B00#16, 0xFF00#16⟩,
   ⟨0x2C00#16, 0xFF00#16⟩, ⟨0x2D00#16, 0xFF00#16⟩, ⟨0x2E00#16, 0xFF00#16⟩, ⟨0x2F00#16, 0xFF00#16⟩,
   ⟨0x3000#16, 0xFF00#16⟩, ⟨0x3100#16, 0xFF00#16⟩, ⟨0x3200#16, 0xFF00#16⟩, ⟨0x3300#16, 0xFF00#16⟩,
   ⟨0x3400#16, 0xFF00#16⟩, ⟨0x3500#16, 0xFF00#16⟩, ⟨0x3600#16, 0xFF00#16⟩, ⟨0x3700#16, 0xFF00#16⟩,
   ⟨0x3800#16, 0xFF00#16⟩, ⟨0x3900#16, 0xFF00#16⟩, ⟨0x3A00#16, 0xFF00#16⟩, ⟨0x3B00#16, 0xFF00#16⟩,
   ⟨0x3C00#16, 0xFF00#16⟩, ⟨0x3D00#16, 0xFF00#16⟩, ⟨0x3E00#16, 0xFF00#16⟩, ⟨0x3F00#16, 0xFF00#16⟩,
   ⟨0x4000#16, 0xC000#16⟩, ⟨0x8000#16, 0xF000#16⟩, ⟨0x9000#16, 0xFF00#16⟩, ⟨0x9800#16, 0xF800#16⟩,
   ⟨0xA000#16, 0xF000#16⟩, ⟨0xB000#16, 0xF000#16⟩, ⟨0xC000#16, 0xF000#16⟩, ⟨0x9400#16, 0xFC00#16⟩,
   ⟨0x9200#16, 0xFE00#16⟩, ⟨0x9100#16, 0xFF00#16⟩, ⟨0x0000#16, 0xF000#16⟩, ⟨0xD000#16, 0xF000#16⟩,
   ⟨0xE000#16, 0xF000#16⟩, ⟨0xF000#16, 0xF000#16⟩]

theorem row_mem_tableRows (i : Instr) : i.row ∈ tableRows := by
  cases i <;> simp only [Instr.row, tableRows, List.mem_cons, true_or, or_true]

theorem tableRows_pairwise_apart : tableRows.Pairwise TableRow.Apart := by
  unfold TableRow.Apart
  decide

/-- Two rows of the table that one word matches are one row. -/
theorem row_unique {w : BitVec 16} {i j : Instr} (hi : w &&& i.row.mask = i.row.pattern)
    (hj : w &&& j.row.mask = j.row.pattern) : i.row = j.row := by
  by_contra ne
  have symmetric : Std.Symm TableRow.Apart := ⟨fun _ _ => Ne.symm⟩
  have apart := tableRows_pairwise_apart.forall (row_mem_tableRows i) (row_mem_tableRows j) ne
  exact apart.not_both hi hj

open Laws.RowMembership in
/-- The word of every instruction belongs to its constructor's own row. -/
theorem encode_matches_row (i : Instr) : encode i &&& i.row.mask = i.row.pattern := by
  cases i with
  | bitFalse d s => exact bitFalse d s
  | bitNor d s => exact bitNor d s
  | bitNcimpl d s => exact bitNcimpl d s
  | bitNotd d s => exact bitNotd d s
  | bitNimpl d s => exact bitNimpl d s
  | bitNots d s => exact bitNots d s
  | bitXor d s => exact bitXor d s
  | bitNand d s => exact bitNand d s
  | bitAnd d s => exact bitAnd d s
  | bitXnor d s => exact bitXnor d s
  | bitS d s => exact bitS d s
  | bitImpl d s => exact bitImpl d s
  | bitD d s => exact bitD d s
  | bitCimpl d s => exact bitCimpl d s
  | bitOr d s => exact bitOr d s
  | bitTrue d s => exact bitTrue d s
  | add d s => exact add d s
  | sub d s => exact sub d s
  | shl d s => exact shl d s
  | shr d s => exact shr d s
  | asr d s => exact asr d s
  | mul d s => exact mul d s
  | div d s => exact div d s
  | mod d s => exact mod d s
  | addImm d n => exact addImm d n
  | subImm d n => exact subImm d n
  | shlImm d n => exact shlImm d n
  | shrImm d n => exact shrImm d n
  | asrImm d n => exact asrImm d n
  | mulImm d n => exact mulImm d n
  | divImm d n => exact divImm d n
  | modImm d n => exact modImm d n
  | cmp d s => exact cmp d s
  | cmpE d s => exact cmpE d s
  | cmpG d s => exact cmpG d s
  | cmpEG d s => exact cmpEG d s
  | cmpS d s => exact cmpS d s
  | cmpES d s => exact cmpES d s
  | cmpGS d s => exact cmpGS d s
  | cmpEGS d s => exact cmpEGS d s
  | cmpI d s => exact cmpI d s
  | cmpEI d s => exact cmpEI d s
  | cmpGI d s => exact cmpGI d s
  | cmpEGI d s => exact cmpEGI d s
  | cmpSI d s => exact cmpSI d s
  | cmpESI d s => exact cmpESI d s
  | cmpGSI d s => exact cmpGSI d s
  | cmpEGSI d s => exact cmpEGSI d s
  | xf dst src => exact xf dst src
  | jc c off => exact jc c off
  | jal l p => exact jal l p
  | subword d bi b => exact subword d bi b
  | srr r n => exact srr r n
  | srw n r => exact srw n r
  | si d imm => exact si d imm
  | jalReservedBit10 low => exact jalReservedBit10 low
  | jalReservedBit9 low => exact jalReservedBit9 low
  | jalReservedBit8 low => exact jalReservedBit8 low
  | unassigned0 low => exact unassigned0 low
  | unassignedD low => exact unassignedD low
  | unassignedE low => exact unassignedE low
  | unassignedF low => exact unassignedF low

/-- Settles O3: a word is the word of what it decodes to, whose row it therefore matches, and no word
matches two rows. -/
theorem everyWordMatchesExactlyOneTableRow : Obligations.EveryWordMatchesExactlyOneTableRow := by
  intro w
  have own : w &&& (decodeWord w).row.mask = (decodeWord w).row.pattern := by
    have spelled := encode_matches_row (decodeWord w)
    rwa [(encodeInvertsDecode w).2] at spelled
  exact ⟨own, fun i hi => row_unique hi own⟩

/-- Settles O4: fourteen closed evaluations of the decoder. -/
theorem specWordsDecode : Obligations.SpecWordsDecode := by
  unfold Obligations.SpecWordsDecode
  decide

end Sys2Proof
end

