-- ==== Sys2Proof/Proofs/ReservedWords.lean ====
section
/-! Executing a word that the spec gives to no instruction (30_encoding.md R103, 44_jump_and_link.md
R206). The stop records the word, which the round trip gives back from the decoded instruction. -/

namespace Sys2Proof.Machine

/-- A constructor for the Jump and Link words with a reserved bit set. -/
def IsReservedJal (i : Instr) : Prop :=
  (∃ low, i = .jalReservedBit10 low) ∨ (∃ low, i = .jalReservedBit9 low) ∨ ∃ low, i = .jalReservedBit8 low

/-- A constructor for the words with an unassigned top nibble. -/
def IsUnassigned (i : Instr) : Prop :=
  (∃ low, i = .unassigned0 low) ∨ (∃ low, i = .unassignedD low) ∨ (∃ low, i = .unassignedE low) ∨
    ∃ low, i = .unassignedF low

theorem stopsWith_of_isReservedJal {i : Instr} (h : IsReservedJal i) (s : State) :
    StopsWith i s (.reservedBits (encode i)) := by
  obtain ⟨low, rfl⟩ | ⟨low, rfl⟩ | ⟨low, rfl⟩ := h <;> rfl

theorem stopsWith_of_isUnassigned {i : Instr} (h : IsUnassigned i) (s : State) :
    StopsWith i s (.reservedOpcode (encode i)) := by
  obtain ⟨low, rfl⟩ | ⟨low, rfl⟩ | ⟨low, rfl⟩ | ⟨low, rfl⟩ := h <;> rfl

theorem isReservedJal_decodeWord {w : BitVec 16} (low : 0x9100 ≤ w.toNat) (high : w.toNat ≤ 0x97FF) :
    IsReservedJal (decodeWord w) := by
  rw [decodeWord_of_jal_bits (by omega)]
  cases h10 : w.getLsbD 10 with
  | true => exact .inl ⟨_, decodeJal_bit10 h10⟩
  | false =>
    cases h9 : w.getLsbD 9 with
    | true => exact .inr (.inl ⟨_, decodeJal_bit9 h10 h9⟩)
    | false =>
      have h8 : w.getLsbD 8 = true := by
        rw [getLsbD_eq_decide_digit, decide_eq_false_iff_not] at h10 h9
        rw [getLsbD_eq_decide_digit, decide_eq_true_iff]
        omega
      exact .inr (.inr ⟨_, decodeJal_bit8 h10 h9 h8⟩)

theorem isUnassigned_decodeWord {w : BitVec 16} (h : w.toNat < 0x1000 ∨ 0xD000 ≤ w.toNat) :
    IsUnassigned (decodeWord w) := by
  have top : (field w 16 12).toNat = 0 ∨ (field w 16 12).toNat = 13 ∨ (field w 16 12).toNat = 14 ∨
      (field w 16 12).toNat = 15 := by rw [toNat_field]; omega
  rcases top with top | top | top | top
  · exact .inl ⟨_, decodeWord_top0 top⟩
  · exact .inr (.inl ⟨_, decodeWord_top13 top⟩)
  · exact .inr (.inr (.inl ⟨_, decodeWord_top14 top⟩))
  · exact .inr (.inr (.inr ⟨_, decodeWord_top15 top⟩))

/-- Settles O31. -/
theorem reservedJalWordsStop : Obligations.ReservedJalWordsStop := by
  refine ⟨fun w s low high => ?word, fun low => ?bit10, fun low => ?bit9, fun low => ?bit8⟩
  case word =>
    have stops := stopsWith_of_isReservedJal (isReservedJal_decodeWord low high) s
    rwa [(encodeInvertsDecode w).2] at stops
  case bit10 => exact stopsWith_of_isReservedJal (.inl ⟨low, rfl⟩)
  case bit9 => exact stopsWith_of_isReservedJal (.inr (.inl ⟨low, rfl⟩))
  case bit8 => exact stopsWith_of_isReservedJal (.inr (.inr ⟨low, rfl⟩))

/-- Settles O32. -/
theorem unassignedWordsStop : Obligations.UnassignedWordsStop := by
  refine ⟨fun w s h => ?word, fun low s => ⟨?top0, ?topD, ?topE, ?topF⟩⟩
  case word =>
    have stops := stopsWith_of_isUnassigned (isUnassigned_decodeWord h) s
    rwa [(encodeInvertsDecode w).2] at stops
  case top0 => exact stopsWith_of_isUnassigned (.inl ⟨low, rfl⟩) s
  case topD => exact stopsWith_of_isUnassigned (.inr (.inl ⟨low, rfl⟩)) s
  case topE => exact stopsWith_of_isUnassigned (.inr (.inr (.inl ⟨low, rfl⟩))) s
  case topF => exact stopsWith_of_isUnassigned (.inr (.inr (.inr ⟨low, rfl⟩))) s

end Sys2Proof.Machine
end

