-- ==== Sys2Proof/Proofs/Frames.lean ====
section
/-! What an instruction that completes leaves unchanged. Each frame is read off the five shapes of
`exec_next`; memory is reached by the store of a Data Transfer only. -/

namespace Sys2Proof.Machine

/-! ### General registers -/

/-- A mode that steps nothing leaves the register as it is. -/
theorem Mode.after_before_of_keep {w : WordSize} {m : Mode} (h : m = .keep) (v : Word w) :
    Mode.after m (Mode.before m v) = v := by subst h; rfl

theorem sourcePhase_read_of_notStepped {c : Config} {m : Memory} {o : Operand} {r r' : RegFile c.width}
    {v : Word c.width} (h : sourcePhase c m o r = .ok (v, r')) {j : Reg} (hj : o.mode = .keep ∨ j ≠ o.reg) :
    RegFile.read r' j = RegFile.read r j := by
  obtain ⟨-, regs⟩ := sourcePhase_ok h
  rw [regs j]
  split
  · next e =>
    subst e
    exact Mode.after_before_of_keep (hj.resolve_right fun ne => ne rfl) _
  · rfl

theorem destPhase_read_of_notStepped {c : Config} {m m' : Memory} {o : Operand} {v : Word c.width}
    {r r' : RegFile c.width} (h : destPhase c m o v r = .ok (r', m')) {j : Reg}
    (hj : (o.indirect = true ∧ o.mode = .keep) ∨ j ≠ o.reg) : RegFile.read r' j = RegFile.read r j := by
  rcases destPhase_ok h with ⟨direct, -, regs⟩ | ⟨-, -, regs⟩
  · have ne : j ≠ o.reg := hj.resolve_left fun ⟨indirect, _⟩ => by simp [direct] at indirect
    rw [regs j, if_neg ne]
  · rw [regs j]
    split
    · next e =>
      subst e
      exact Mode.after_before_of_keep (hj.resolve_right fun ne => ne rfl).2 _
    · rfl

theorem execXf_reg_of_notMem {dst src : Operand} {s t : State} {j : Reg} (h : execXf dst src s = .next t)
    (hj : j ∉ writtenRegs (.xf dst src)) : t.x j = s.x j := by
  obtain ⟨v, r, r', m', hs, hd, rfl⟩ := execXf_next h
  obtain ⟨notDst, notSrc⟩ := not_or.1 (mt List.mem_append.2 hj)
  have source : src.mode = .keep ∨ j ≠ src.reg := by
    split at notSrc
    · next keep => exact .inl keep
    · exact .inr (List.ne_of_not_mem_cons notSrc)
  have dest : (dst.indirect = true ∧ dst.mode = .keep) ∨ j ≠ dst.reg := by
    split at notDst
    · next keep => exact .inl keep
    · exact .inr (List.ne_of_not_mem_cons notDst)
  exact congrArg BitVec.toNat
    ((destPhase_read_of_notStepped hd dest).trans (sourcePhase_read_of_notStepped hs source))

/-- Settles O52. -/
theorem registersChangeOnlyAsNamed : Obligations.RegistersChangeOnlyAsNamed := by
  intro i s t j h hj
  rcases exec_next h with ⟨d, v, hd, rfl⟩ | ⟨l, p, rfl, h⟩ | ⟨r, n, v, rfl, rfl⟩ | ⟨n, r, rfl, h⟩ | ⟨dst, src, rfl, h⟩
  case inl => exact congrArg BitVec.toNat (s.reg_setReg_of_ne (ne_of_mem_of_not_mem hd hj).symm v)
  case inr.inl =>
    obtain ⟨notL, notPc⟩ := not_or.1 (mt List.mem_cons.2 hj)
    obtain rfl := execJal_next h
    refine congrArg BitVec.toNat ?_
    exact (RegFile.read_write_of_ne _ (List.ne_of_not_mem_cons notPc) _).trans (RegFile.read_write_of_ne _ notL _)
  case inr.inr.inl => exact congrArg BitVec.toNat (RegFile.read_write_of_ne _ (List.ne_of_not_mem_cons hj) v)
  case inr.inr.inr.inl =>
    rcases writeSysReg_next h with ⟨-, rfl⟩ | ⟨-, -, rfl⟩ | ⟨-, rfl⟩ | ⟨-, rfl⟩ | ⟨-, rfl⟩ <;> rfl
  case inr.inr.inr.inr => exact execXf_reg_of_notMem h hj

/-! ### System state and memory -/

/-- What a Data Transfer leaves: everything but registers, and memory too unless it stores. -/
theorem execXf_frame {dst src : Operand} {s t : State} (h : execXf dst src s = .next t) :
    ∃ (r : RegFile s.cfg.width) (m : Memory), t = { s with regs := r, mem := m } ∧
      (m = s.mem ∨ dst.indirect = true ∧ ∃ a v, storeWord s.cfg s.mem a v = .ok m) := by
  obtain ⟨v, r, r', m', -, hd, rfl⟩ := execXf_next h
  refine ⟨r', m', rfl, ?_⟩
  rcases destPhase_ok hd with ⟨-, same, -⟩ | ⟨indirect, stored, -⟩
  · exact .inl same
  · exact .inr ⟨indirect, _, _, stored⟩

/-- Settles O53. -/
theorem systemStateChangesOnlyByItsInstruction : Obligations.SystemStateChangesOnlyByItsInstruction := by
  intro i s t h
  rcases exec_next h with ⟨d, v, -, rfl⟩ | ⟨l, p, rfl, h⟩ | ⟨r, n, v, rfl, rfl⟩ | ⟨n, r, rfl, h⟩ | ⟨dst, src, rfl, h⟩
  case inl =>
    exact ⟨rfl, fun _ => rfl, fun _ => rfl, fun _ => rfl, fun _ => rfl, fun _ => rfl, fun _ => rfl, fun _ _ => rfl⟩
  case inr.inl =>
    obtain rfl := execJal_next h
    exact ⟨rfl, fun _ => rfl, fun _ => rfl, fun _ => rfl, fun _ => rfl, fun _ => rfl, fun _ => rfl, fun _ _ => rfl⟩
  case inr.inr.inl =>
    have draws (hne : ∀ q, Instr.srr r n ≠ .srr q 5) : (if n = 5 then s.draws + 1 else s.draws) = s.draws :=
      if_neg fun e => hne r (congrArg (Instr.srr r) e)
    exact ⟨rfl, fun _ => rfl, fun _ => rfl, fun _ => rfl, fun _ => rfl, fun _ => rfl, draws, fun _ _ => rfl⟩
  case inr.inr.inr.inl =>
    rcases writeSysReg_next h with ⟨rfl, rfl⟩ | ⟨rfl, -, rfl⟩ | ⟨rfl, rfl⟩ | ⟨rfl, rfl⟩ | ⟨rfl, rfl⟩
    · exact ⟨rfl, fun hne => absurd rfl (hne r), fun _ => rfl, fun _ => rfl, fun _ => rfl, fun _ => rfl, fun _ => rfl,
        fun _ _ => rfl⟩
    · exact ⟨rfl, fun _ => rfl, fun _ => rfl, fun _ => rfl, fun hne => absurd rfl (hne r), fun _ => rfl, fun _ => rfl,
        fun _ _ => rfl⟩
    · exact ⟨rfl, fun _ => rfl, fun hne => absurd rfl (hne r), fun _ => rfl, fun _ => rfl, fun _ => rfl, fun _ => rfl,
        fun _ _ => rfl⟩
    · exact ⟨rfl, fun _ => rfl, fun _ => rfl, fun hne => absurd rfl (hne r), fun _ => rfl, fun _ => rfl, fun _ => rfl,
        fun _ _ => rfl⟩
    · exact ⟨rfl, fun _ => rfl, fun _ => rfl, fun _ => rfl, fun _ => rfl, fun hne => absurd rfl (hne r), fun _ => rfl,
        fun _ _ => rfl⟩
  case inr.inr.inr.inr =>
    obtain ⟨r, m, rfl, hm⟩ := execXf_frame h
    refine ⟨rfl, fun _ => rfl, fun _ => rfl, fun _ => rfl, fun _ => rfl, fun _ => rfl, fun _ => rfl, fun direct a => ?_⟩
    rcases hm with rfl | ⟨indirect, -⟩
    · rfl
    · exact absurd indirect (by simp [direct dst src rfl])

theorem exec_cfg {i : Instr} {s t : State} (h : exec i s = .next t) : t.cfg = s.cfg :=
  (systemStateChangesOnlyByItsInstruction i s t h).1

/-- Memory after an instruction is memory before it, or what one word store of a Data Transfer makes of it. -/
theorem exec_mem {i : Instr} {s t : State} (h : exec i s = .next t) :
    t.mem = s.mem ∨ (∃ dst src, i = .xf dst src) ∧ ∃ a v, storeWord s.cfg s.mem a v = .ok t.mem := by
  rcases exec_next h with ⟨d, v, -, rfl⟩ | ⟨l, p, rfl, h⟩ | ⟨r, n, v, rfl, rfl⟩ | ⟨n, r, rfl, h⟩ | ⟨dst, src, rfl, h⟩
  case inl => exact .inl rfl
  case inr.inl =>
    obtain rfl := execJal_next h
    exact .inl rfl
  case inr.inr.inl => exact .inl rfl
  case inr.inr.inr.inl =>
    rcases writeSysReg_next h with ⟨-, rfl⟩ | ⟨-, -, rfl⟩ | ⟨-, rfl⟩ | ⟨-, rfl⟩ | ⟨-, rfl⟩ <;> exact .inl rfl
  case inr.inr.inr.inr =>
    obtain ⟨r, m, rfl, hm⟩ := execXf_frame h
    exact hm.imp id fun ⟨_, stored⟩ => ⟨⟨dst, src, rfl⟩, stored⟩

end Sys2Proof.Machine
end

