-- ==== Sys2Proof/Proofs/MemoryAccess.lean ====
section
/-! Word accesses (20_memory.md R60 to R75): when they stop, which byte lies where, that a load or a
fetch sees what a store has written. A read that completes is characterised by the bytes of memory, so
no proof assembles a value again. -/

namespace Sys2Proof.Machine

/-! ### The byte of a value at each address (R62) -/

/-- The byte of an `n`-byte value `v` that lies `k` addresses above the first. -/
def byteAt (o : ByteOrder) (n : Nat) (v : BitVec (8 * n)) (k : Nat) : Byte :=
  if o = .little then byteOf v k else byteOf v (n - 1 - k)

theorem bytesOf_eq_map (o : ByteOrder) (n : Nat) (v : BitVec (8 * n)) :
    bytesOf o n v = (List.range n).map (byteAt o n v) := by
  cases o <;> rfl

theorem Memory.getAll_map_eq_some_iff {m : Memory} {l : List Nat} {f : Nat → Nat} {g : Nat → Byte} :
    Memory.getAll m (l.map f) = some (l.map g) ↔ ∀ k ∈ l, Memory.get m (f k) = some (g k) := by
  induction l with
  | nil => simp [Memory.getAll]
  | cons k l ih =>
    rw [List.forall_mem_cons, ← ih, List.map_cons, List.map_cons, Memory.getAll]
    cases Memory.get m (f k) <;> cases Memory.getAll m (l.map f) <;> simp

/-- An access reads the bytes of `v` exactly if each address holds its byte of `v`. -/
theorem getAll_addresses_eq_some_iff {w : WordSize} {m : Memory} {a : Word w} {o : ByteOrder} {n : Nat}
    {v : BitVec (8 * n)} : Memory.getAll m (addresses a n) = some (bytesOf o n v) ↔
      ∀ k < n, Memory.get m ((a.toNat + k) % 2 ^ w.bits) = some (byteAt o n v k) := by
  rw [bytesOf_eq_map, addresses, Memory.getAll_map_eq_some_iff]
  simp only [List.mem_range]

/-! ### Bytes determine the value -/

theorem Memory.length_of_getAll {m : Memory} {as : List Nat} {bs : List Byte} (h : Memory.getAll m as = some bs) :
    bs.length = as.length := by
  induction as generalizing bs with
  | nil => obtain rfl := Option.some.inj h; rfl
  | cons a as ih =>
    simp only [Memory.getAll] at h
    split at h
    · next b cs _ hcs =>
      obtain rfl := Option.some.inj h
      rw [List.length_cons, List.length_cons, ih hcs]
    · cases h

theorem ofBytesLE_lt (bs : List Byte) : ofBytesLE bs < 2 ^ (8 * bs.length) := by
  induction bs with
  | nil => simp [ofBytesLE]
  | cons b bs ih =>
    have hb := b.isLt
    rw [ofBytesLE, List.length_cons, Nat.mul_succ, Nat.pow_add]
    omega

theorem ofBytesLE_digit {bs : List Byte} {k : Nat} (h : k < bs.length) :
    ofBytesLE bs / 2 ^ (8 * k) % 2 ^ 8 = bs[k].toNat := by
  induction bs generalizing k with
  | nil => cases h
  | cons b bs ih =>
    have hb := b.isLt
    cases k with
    | zero => simp only [ofBytesLE, List.getElem_cons_zero]; omega
    | succ k =>
      have tail : ofBytesLE (b :: bs) / 2 ^ 8 = ofBytesLE bs := by simp only [ofBytesLE]; omega
      rw [show 8 * (k + 1) = 8 + 8 * k by omega, Nat.pow_add, ← Nat.div_div_eq_div_mul, tail,
        List.getElem_cons_succ]
      exact ih (Nat.lt_of_succ_lt_succ h)

theorem byteOf_ofBytesLE {bs : List Byte} {k : Nat} (h : k < bs.length) :
    byteOf (BitVec.ofNat (8 * bs.length) (ofBytesLE bs)) k = bs[k] := by
  apply BitVec.eq_of_toNat_eq
  rw [byteOf, BitVec.extractLsb'_toNat, BitVec.toNat_ofNat, Nat.mod_eq_of_lt (ofBytesLE_lt bs),
    Nat.shiftRight_eq_div_pow, ofBytesLE_digit h]

/-- The bytes of an assembled value are those that it was assembled from, in either byte order. -/
theorem bytesOf_assemble (o : ByteOrder) (bs : List Byte) :
    bytesOf o bs.length (BitVec.ofNat (8 * bs.length) (assemble o bs)) = bs := by
  refine List.ext_getElem (length_bytesOf o _ _) fun k h1 h2 => ?_
  cases o with
  | little => simpa [bytesOf, assemble] using byteOf_ofBytesLE h2
  | big =>
    have reversed : bs.length - 1 - k < bs.reverse.length := by rw [List.length_reverse]; omega
    have digit := byteOf_ofBytesLE reversed
    rw [List.getElem_reverse, List.length_reverse] at digit
    simp only [bytesOf, assemble, List.getElem_map, List.getElem_range, digit]
    congr 1
    omega

/-- A read completes with `v` exactly if the access does not stop and its addresses hold the bytes of `v`. -/
theorem memRead_eq_ok_iff {c : Config} {m : Memory} {k : AccessKind} {a : Word c.width} {n : Nat}
    {v : BitVec (8 * n)} : memRead c m k a n = .ok v ↔
      accessFault c k a n = none ∧ Memory.getAll m (addresses a n) = some (bytesOf c.byteOrder n v) := by
  refine ⟨fun h => ?_, fun ⟨hf, hb⟩ => memRead_eq hf hb⟩
  obtain ⟨hf, bs, hb, rfl⟩ := memRead_ok h
  have len : bs.length = n := (Memory.length_of_getAll hb).trans (length_addresses a n)
  subst len
  exact ⟨hf, by rw [hb, bytesOf_assemble]⟩

/-! ### When an access stops (R63, R65, R275) -/

theorem memRead_of_accessFault {c : Config} {m : Memory} {k : AccessKind} {a : Word c.width} {n : Nat} {f : Fault}
    (h : accessFault c k a n = some f) : memRead c m k a n = .error f := by
  simp only [memRead, h]

theorem memWrite_of_accessFault {c : Config} {m : Memory} {a : Word c.width} {n : Nat} {v : BitVec (8 * n)}
    {f : Fault} (h : accessFault c .store a n = some f) : memWrite c m a n v = .error f := by
  simp only [memWrite, h]

theorem memRead_of_unwritten {c : Config} {m : Memory} {k : AccessKind} {a : Word c.width} {n : Nat}
    (h : accessFault c k a n = none) {j : Nat} (hj : j < n)
    (hm : Memory.get m ((a.toNat + j) % 2 ^ c.width.bits) = none) :
    memRead c m k a n = .error (.uninitRead k a.toNat) := by
  simp only [memRead, h, Memory.getAll_eq_none (mem_addresses.2 ⟨j, hj, rfl⟩) hm]

/-- A read of an access that does not stop gives a value or finds a byte without one. -/
theorem memRead_of_accessFault_none {c : Config} (m : Memory) {k : AccessKind} {a : Word c.width} {n : Nat}
    (h : accessFault c k a n = none) :
    (∃ v, memRead c m k a n = .ok v) ∨ memRead c m k a n = .error (.uninitRead k a.toNat) := by
  simp only [memRead, h]
  cases Memory.getAll m (addresses a n) with
  | some bs => exact .inl ⟨_, rfl⟩
  | none => exact .inr rfl

theorem accessFault_eq_none_iff {c : Config} {k : AccessKind} {a : Word c.width} {n : Nat} :
    accessFault c k a n = none ↔
      a.toNat % n = 0 ∧ ∀ j, j < n → isMapped c ((a.toNat + j) % 2 ^ c.width.bits) = true := by
  rw [accessFault_eq_none]
  refine and_congr_right fun _ => ⟨fun h j hj => h _ (mem_addresses.2 ⟨j, hj, rfl⟩), fun h x hx => ?_⟩
  obtain ⟨j, hj, rfl⟩ := mem_addresses.1 hx
  exact h j hj

/-- Whether an access stops does not depend on its kind. -/
theorem accessFault_eq_none_of_kind {c : Config} {k l : AccessKind} {a : Word c.width} {n : Nat}
    (h : accessFault c k a n = none) : accessFault c l a n = none :=
  accessFault_eq_none.2 (accessFault_eq_none.1 h)

/-- Settles O51. -/
theorem dataAccessStops : Obligations.DataAccessStops := by
  intro c m a v
  refine ⟨fun h => ⟨?_, ?_⟩, fun h ⟨k, hk, hm⟩ => ⟨?_, ?_⟩, fun h hm => ⟨?_, ?_⟩⟩
  · exact memRead_of_accessFault (accessFault_of_misaligned h)
  · exact memWrite_of_accessFault (accessFault_of_misaligned h)
  · exact memRead_of_accessFault (accessFault_of_unmapped h hk hm)
  · exact memWrite_of_accessFault (accessFault_of_unmapped h hk hm)
  · exact ⟨_, memWrite_eq m v (accessFault_eq_none_iff.2 ⟨h, hm⟩)⟩
  · exact memRead_of_accessFault_none m (accessFault_eq_none_iff.2 ⟨h, hm⟩)

/-! ### What a write leaves (R62, R68) -/

/-- After a write the addresses hold the bytes of the value. -/
theorem getAll_of_memWrite {c : Config} {m m' : Memory} {a : Word c.width} {n : Nat} {v : BitVec (8 * n)}
    (hn : n ≤ 8) (h : memWrite c m a n v = .ok m') :
    Memory.getAll m' (addresses a n) = some (bytesOf c.byteOrder n v) := by
  obtain ⟨-, rfl⟩ := memWrite_ok h
  have distinct := nodup_addresses a (hn.trans (WordSize.eight_le c.width))
  exact Memory.getAll_setAll distinct ((length_addresses a n).trans (length_bytesOf _ n v).symm)

theorem get_of_memWrite_of_notMem {c : Config} {m m' : Memory} {a : Word c.width} {n : Nat} {v : BitVec (8 * n)}
    (h : memWrite c m a n v = .ok m') {b : Nat} (hb : b ∉ addresses a n) : Memory.get m' b = Memory.get m b := by
  obtain ⟨-, rfl⟩ := memWrite_ok h
  exact Memory.get_setAll_of_notMem hb

theorem loadWord_of_storeWord {c : Config} {m m' : Memory} {a v : Word c.width} (h : storeWord c m a v = .ok m') :
    loadWord c m' a = .ok v :=
  memRead_eq (accessFault_eq_none_of_kind (memWrite_ok h).1) (getAll_of_memWrite (WordSize.bytes_le c.width) h)

/-- Settles O49. -/
theorem storedWordLoadsBack : Obligations.StoredWordLoadsBack := fun _ _ _ _ _ h =>
  ⟨loadWord_of_storeWord h, fun _ hb => get_of_memWrite_of_notMem h hb⟩

/-- Settles O48: both directions are the bytes of the value at its addresses, and the byte order is part
of the configuration. -/
theorem wordsLieInByteOrder : Obligations.WordsLieInByteOrder := by
  refine ⟨fun c m a n v k hn hk => ⟨fun m' h => ?write, fun kind h => ?read⟩, fun i s t h => ?order⟩
  case write =>
    have small : n ≤ 8 := by
      rcases hn with rfl | rfl
      · decide
      · exact WordSize.bytes_le c.width
    exact getAll_addresses_eq_some_iff.1 (getAll_of_memWrite small h) k hk
  case read => exact getAll_addresses_eq_some_iff.1 (memRead_eq_ok_iff.1 h).2 k hk
  case order => exact congrArg Config.byteOrder (exec_cfg h)

/-! ### Fetching from a stored word (R71, R75) -/

theorem WordSize.two_le_bytes (w : WordSize) : 2 ≤ w.bytes := by cases w <;> decide

theorem WordSize.two_dvd_bytes (w : WordSize) : 2 ∣ w.bytes := by cases w <;> decide

theorem byteOf_low_half {w : WordSize} (v : Word w) {k : Nat} (hk : k < 2) :
    byteOf (v.setWidth 16) k = byteOf v k := by
  refine BitVec.eq_of_getLsbD_eq fun i hi => ?_
  have inside : 8 * k + i < 16 := by omega
  simp [byteOf, inside]

theorem byteOf_high_half {w : WordSize} (v : Word w) {k : Nat} (hk : k < 2) :
    byteOf ((v >>> (w.bits - 16)).setWidth 16) (1 - k) = byteOf v (w.bytes - 1 - k) := by
  have two := WordSize.two_le_bytes w
  refine BitVec.eq_of_getLsbD_eq fun i hi => ?_
  have inside : 8 * (1 - k) + i < 16 := by omega
  have place : 8 * w.bytes - 16 + (8 * (1 - k) + i) = 8 * (w.bytes - 1 - k) + i := by omega
  simp [byteOf, inside, place]

/-- The two lowest addresses of a word hold the bytes of its low half if little, of its high half if big. -/
theorem byteAt_half (o : ByteOrder) {w : WordSize} (v : Word w) {k : Nat} (hk : k < 2) :
    byteAt o 2 (if o = .little then v.setWidth 16 else (v >>> (w.bits - 16)).setWidth 16) k =
      byteAt o w.bytes v k := by
  cases o with
  | little => exact byteOf_low_half v hk
  | big => exact byteOf_high_half v hk

/-- Settles O50: a stored word is aligned and mapped for a fetch too. -/
theorem fetchSeesStoredWord : Obligations.FetchSeesStoredWord := by
  intro c m m' a v h
  obtain ⟨aligned, mapped⟩ := accessFault_eq_none_iff.1 (memWrite_ok h).1
  have held := getAll_addresses_eq_some_iff.1 (getAll_of_memWrite (WordSize.bytes_le c.width) h)
  have inside : ∀ k, k < 2 → k < c.width.bytes := fun k hk => hk.trans_le (WordSize.two_le_bytes c.width)
  have even : a.toNat % 2 = 0 :=
    Nat.mod_eq_zero_of_dvd ((WordSize.two_dvd_bytes c.width).trans (Nat.dvd_of_mod_eq_zero aligned))
  refine memRead_eq_ok_iff.2 ⟨accessFault_eq_none_iff.2 ⟨even, fun j hj => mapped j (inside j hj)⟩, ?_⟩
  refine getAll_addresses_eq_some_iff.2 fun k hk => ?_
  rw [held k (inside k hk), byteAt_half c.byteOrder v hk]

end Sys2Proof.Machine
end

