-- ==== Sys2Proof/Proofs/Steps.lean ====
section
/-! The step of 00_scope.md R11: what stops a fetch, what a completed step leaves in x[0], SR 4, the
halt flag and memory, and the reset state that a run begins from (10_state.md R44). -/

namespace Sys2Proof.Machine

/-! ### The fetch -/

theorem step_of_halted {s : State} (h : s.halted = true) : step s = .next s := by
  simp only [step, h, if_true]

theorem step_of_fetch_ok {s : State} {iw : BitVec 16} (h : s.halted = false) (hf : fetchInsn s = .ok iw) :
    step s = finishStep (exec (decodeWord iw) s.advancePc) := by
  simp only [step, h, hf, Bool.false_eq_true, if_false]

theorem step_of_fetch_error {s : State} {f : Fault} (h : s.halted = false) (hf : fetchInsn s = .error f) :
    step s = .fault f := by
  simp only [step, h, hf, stop, Bool.false_eq_true, if_false]

/-- Settles O9. -/
theorem haltedCoreTakesNoStep : Obligations.HaltedCoreTakesNoStep := fun _ => step_of_halted

/-- Settles O10. -/
theorem fetchStops : Obligations.FetchStops := by
  intro s running
  refine ⟨fun odd => ?misaligned, fun even ⟨k, hk, hm⟩ => ?unmapped, fun even hm ⟨k, hk, h0⟩ => ?unwritten⟩
  case misaligned =>
    have notAligned : s.pc.toNat % 2 ≠ 0 := fun e => by simp [odd] at e
    exact step_of_fetch_error running (memRead_of_accessFault (accessFault_of_misaligned notAligned))
  case unmapped =>
    exact step_of_fetch_error running (memRead_of_accessFault (accessFault_of_unmapped even hk hm))
  case unwritten =>
    exact step_of_fetch_error running (memRead_of_unwritten (accessFault_eq_none_iff.2 ⟨even, hm⟩) hk h0)

/-! ### Counters -/

/-- Adding a small number to a word. -/
theorem toNat_add_ofNat {w : WordSize} (v : Word w) (n : Nat) :
    (v + BitVec.ofNat w.bits n).toNat = (v.toNat + n) % 2 ^ w.bits := by
  rw [BitVec.toNat_add, BitVec.toNat_ofNat, Nat.add_mod_mod]

theorem onlyReg_advancePc (s : State) : OnlyReg Reg.pc ((s.x Reg.pc + 2) % 2 ^ s.W) s s.advancePc := by
  have frame := onlyReg_setReg s Reg.pc (s.pc + BitVec.ofNat s.cfg.width.bits 2)
  rwa [toNat_add_ofNat] at frame

theorem toNat_retired_retire (s : State) : s.retire.retired.toNat = (s.retired.toNat + 1) % 2 ^ s.W :=
  toNat_add_ofNat s.retired 1

/-- Settles O8. -/
theorem stepRunsDecodedInstruction : Obligations.StepRunsDecodedInstruction := by
  intro s iw i running even mapped bytes decoded _
  have fetched : fetchInsn s = .ok iw := memRead_eq (accessFault_eq_none_iff.2 ⟨even, mapped⟩) bytes
  refine ⟨?_, onlyReg_advancePc s, fun t => ⟨rfl, toNat_retired_retire t, rfl⟩⟩
  rw [step_of_fetch_ok running fetched, decoded]

/-- A completed step of a running core, once the fetched word is known. -/
theorem step_next_of_fetch {s t : State} {iw : BitVec 16} (running : s.halted = false) (hf : fetchInsn s = .ok iw)
    (h : step s = .next t) : ∃ u, exec (decodeWord iw) s.advancePc = .next u ∧ t = u.retire := by
  rw [step_of_fetch_ok running hf] at h
  exact finishStep_next h

/-- Settles O11. -/
theorem pcAdvancesUnlessWritten : Obligations.PcAdvancesUnlessWritten := by
  intro s t iw running hf h notWritten
  obtain ⟨u, hu, rfl⟩ := step_next_of_fetch running hf h
  calc u.x Reg.pc = s.advancePc.x Reg.pc := registersChangeOnlyAsNamed _ _ _ _ hu notWritten
    _ = (s.x Reg.pc + 2) % 2 ^ s.W := (onlyReg_advancePc s).1

/-- Settles O12. -/
theorem stepCountsInstruction : Obligations.StepCountsInstruction := by
  intro s t iw running hf h
  obtain ⟨u, hu, rfl⟩ := step_next_of_fetch running hf h
  have width : u.W = s.W := congrArg (fun c : Config => c.width.bits) (exec_cfg (s := s.advancePc) hu)
  rw [toNat_retired_retire, width]
  constructor
  · intro notSrw4
    obtain ⟨-, -, retired, -⟩ := systemStateChangesOnlyByItsInstruction _ _ _ hu
    rw [retired notSrw4]
  · intro r decoded
    rw [decoded] at hu
    obtain rfl : { s.advancePc with retired := s.advancePc.reg r } = u := Host.Outcome.next.inj hu
    rfl

/-! ### Halting -/

/-- A word with no bit above bit 0 and bit 0 set is 1. -/
theorem toNat_eq_one_of_bits {w : WordSize} {v : Word w} (above : v >>> 1 = 0#w.bits) (low : v.getLsbD 0 = true) :
    v.toNat = 1 := by
  have half : v.toNat / 2 = 0 := by simpa [Nat.shiftRight_eq_div_pow] using congrArg BitVec.toNat above
  have odd : v.toNat % 2 = 1 := by simpa [BitVec.getLsbD, Nat.testBit_zero] using low
  omega

theorem exec_halts {i : Instr} {s t : State} (running : s.halted = false) (h : exec i s = .next t)
    (halted : t.halted = true) : ∃ r, i = .srw 3 r ∧ s.x r = 1 := by
  by_cases hi : ∃ r, i = .srw 3 r
  · obtain ⟨r, rfl⟩ := hi
    have write : writeSysReg s 3 (s.reg r) (encode (.srw 3 r)) = .next t := h
    rcases writeSysReg_next write with ⟨ne, -⟩ | ⟨-, above, rfl⟩ | ⟨ne, -⟩ | ⟨ne, -⟩ | ⟨ne, -⟩
    case inr.inl =>
      have low : (s.reg r).getLsbD 0 = true := by simpa only [running, Bool.false_or] using halted
      exact ⟨r, rfl, toNat_eq_one_of_bits above low⟩
    all_goals exact absurd ne (by decide)
  · obtain ⟨-, -, -, -, frame, -⟩ := systemStateChangesOnlyByItsInstruction _ _ _ h
    have same : t.halted = s.halted := frame fun r e => hi ⟨r, e⟩
    rw [same, running] at halted
    cases halted

/-- Settles O13. -/
theorem coreHaltsOnlyByWritingSr3 : Obligations.CoreHaltsOnlyByWritingSr3 := by
  intro s t running h halted
  rcases step_next h with ⟨already, -⟩ | ⟨-, iw, u, hf, hu, rfl⟩
  · rw [running] at already
    cases already
  · obtain ⟨r, decoded, one⟩ := exec_halts (s := s.advancePc) running hu halted
    exact ⟨iw, r, hf, decoded, one⟩

/-! ### The invariant of memory -/

/-- Every instruction keeps memory canonical, existing and mapped. -/
theorem exec_keeps_inv {i : Instr} {s t : State} (inv : s.Inv) (h : exec i s = .next t) : t.Inv := by
  obtain ⟨wf, within⟩ := inv
  rw [State.Inv, exec_cfg h]
  rcases exec_mem h with same | ⟨-, a, v, stored⟩
  · rw [same]
    exact ⟨wf, within⟩
  · exact ⟨memWrite_wf stored wf, memWrite_within stored within⟩

/-- Settles O57: advancing and retiring touch neither memory nor configuration, and the instruction
between them keeps the invariant. -/
theorem stepKeepsMemoryCanonical : Obligations.StepKeepsMemoryCanonical := by
  intro s t inv h
  rcases step_next h with ⟨-, rfl⟩ | ⟨-, iw, u, -, hu, rfl⟩
  · exact ⟨inv, rfl⟩
  · have kept : u.Inv := exec_keeps_inv (s := s.advancePc) inv hu
    exact ⟨kept, exec_cfg (s := s.advancePc) (t := u) hu⟩

/-! ### Reset -/

theorem resetWith_inv (c : Config) (p : PowerOn c.width) (wf : Memory.wf p.mem) (within : Memory.within c p.mem) :
    (State.resetWith c p).Inv := ⟨wf, within⟩

/-- Settles O58: the named machine starts with no byte listed. -/
theorem resetMeetsTheInvariant : Obligations.ResetMeetsTheInvariant := by
  have empty : Memory.within Config.prototype (PowerOn.named Config.prototype.width).mem := List.forall_mem_nil _
  exact ⟨resetWith_inv _ _ List.Pairwise.nil empty, by decide, resetWith_inv⟩

theorem reg_resetWith (c : Config) (p : PowerOn c.width) (j : Reg) :
    (State.resetWith c p).reg j = if j = Reg.pc then c.resetPc else RegFile.read p.regs j :=
  RegFile.read_write p.regs Reg.pc j c.resetPc

/-- Settles O59. -/
theorem resetStartsRunningAtResetPc : Obligations.ResetStartsRunningAtResetPc := by
  refine ⟨fun c p => ⟨?retired, ?cycles, ?pc, rfl, rfl, rfl, rfl, fun j hj => ?others⟩, rfl⟩
  case retired => exact BitVec.toNat_zero
  case cycles => exact BitVec.toNat_zero
  case pc => exact congrArg BitVec.toNat ((reg_resetWith c p Reg.pc).trans (if_pos rfl))
  case others => exact (reg_resetWith c p j).trans (if_neg hj)

end Sys2Proof.Machine
end

