-- ==== Sys2Proof/Proofs/Bitwise.lean ====
section
/-! The Bitwise instructions (40_bitwise.md R120 to R136): the union of lutEntry terms is the truth table
read bit by bit, and each closed form is that table as a function of two truth values. -/

namespace Sys2Proof.Machine

/-! ### The truth table at one bit position (R120) -/

theorem getLsbD_lutEntry {w : WordSize} (tt : BitVec 4) (idx : Nat) {i : Nat} (hi : i < w.bits) :
    (lutEntry tt idx : Word w).getLsbD i = tt.getLsbD idx := by
  unfold lutEntry
  cases tt.getLsbD idx <;> simp [hi]

theorem getLsbD_bitLut {w : WordSize} (tt : BitVec 4) (d s : Word w) {i : Nat} (hi : i < w.bits) :
    (bitLut tt d s).getLsbD i = tt.getLsbD (2 * (d.getLsbD i).toNat + (s.getLsbD i).toNat) := by
  simp only [bitLut, BitVec.getLsbD_or, BitVec.getLsbD_and, BitVec.getLsbD_not, getLsbD_lutEntry tt _ hi, hi]
  cases d.getLsbD i <;> cases s.getLsbD i <;> simp

theorem exec_decodeBit (tt : Fin 16) (d s : Reg) (st : State) :
    exec (decodeBit tt.val d s) st = bitwise (BitVec.ofFin tt) d s st := by
  fin_cases tt <;> rfl

/-- Settles O14. -/
theorem bitwiseAppliesTruthTable : Obligations.BitwiseAppliesTruthTable := by
  intro tt d s st
  obtain ⟨-, others, system, memory⟩ := onlyReg_setReg st d (bitLut (BitVec.ofFin tt) (st.reg d) (st.reg s))
  refine ⟨_, (exec_decodeBit tt d s st).trans (bitwise_eq _ d s st), fun i hi => ?_, others, system, memory⟩
  rw [st.reg_setReg_same]
  exact getLsbD_bitLut _ _ _ hi

/-! ### Closed forms -/

/-- An instruction that answers a register write sets the register to the number that the value is. -/
theorem sets_of_value {i : Instr} {s : State} {d : Reg} {v : Word s.cfg.width} {n : Nat}
    (h : exec i s = .next (s.setReg d v)) (value : v.toNat = n) : Sets i d n s :=
  value ▸ sets_of_exec_eq_setReg h

/-- A truth table that is a function of two truth values computes any word that has this function's value
at every bit. -/
theorem bitLut_eq_of_table {w : WordSize} {tt : BitVec 4} {d s v : Word w} (f : Bool → Bool → Bool)
    (table : ∀ a b : Bool, tt.getLsbD (2 * a.toNat + b.toNat) = f a b)
    (bits : ∀ k < w.bits, v.getLsbD k = f (d.getLsbD k) (s.getLsbD k)) : bitLut tt d s = v :=
  BitVec.eq_of_getLsbD_eq fun k hk => by rw [getLsbD_bitLut tt _ _ hk, table, bits k hk]

theorem sets_bitwise {i : Instr} {tt : BitVec 4} {d s : Reg} {st : State} (h : exec i st = bitwise tt d s st)
    (f : Bool → Bool → Bool) (table : ∀ a b : Bool, tt.getLsbD (2 * a.toNat + b.toNat) = f a b)
    (v : Word st.cfg.width)
    (bits : ∀ k < st.cfg.width.bits, v.getLsbD k = f ((st.reg d).getLsbD k) ((st.reg s).getLsbD k)) :
    Sets i d v.toNat st :=
  sets_of_value h (congrArg BitVec.toNat (bitLut_eq_of_table f table bits))

/-- Settles O15: the truth tables 0 to 7 as functions of the two bits. -/
theorem bitwiseFalseToNand : Obligations.BitwiseFalseToNand := by
  intro d s st
  refine ⟨?false, ?nor, ?ncimpl, ?notd, ?nimpl, ?nots, ?xor, ?nand⟩
  case false =>
    have sets := sets_bitwise (i := .bitFalse d s) (st := st) rfl (fun _ _ => false) (by decide)
      0#st.cfg.width.bits (by simp)
    rwa [BitVec.toNat_zero] at sets
  case nor => exact sets_bitwise rfl (fun a b => !(a || b)) (by decide) _ (fun k hk => by simp [hk])
  case ncimpl => exact sets_bitwise rfl (fun a b => !a && b) (by decide) _ (fun k hk => by simp [hk])
  case notd => exact sets_bitwise (s := s) rfl (fun a _ => !a) (by decide) _ (fun k hk => by simp [hk])
  case nimpl => exact sets_bitwise rfl (fun a b => a && !b) (by decide) _ (fun k hk => by simp [hk])
  case nots => exact sets_bitwise rfl (fun _ b => !b) (by decide) _ (fun k hk => by simp [hk])
  case xor => exact sets_bitwise rfl (fun a b => a ^^ b) (by decide) _ (by simp)
  case nand => exact sets_bitwise rfl (fun a b => !(a && b)) (by decide) _ (fun k hk => by simp [hk])

/-- Settles O16: the truth tables 8 to 15 as functions of the two bits. -/
theorem bitwiseAndToTrue : Obligations.BitwiseAndToTrue := by
  intro d s st
  refine ⟨?and, ?xnor, ?s, ?impl, ?d, ?cimpl, ?or, ?true⟩
  case and => exact sets_bitwise rfl (fun a b => a && b) (by decide) _ (by simp)
  case xnor => exact sets_bitwise rfl (fun a b => !(a ^^ b)) (by decide) _ (fun k hk => by simp [hk])
  case s => exact sets_bitwise rfl (fun _ b => b) (by decide) _ (by simp)
  case impl => exact sets_bitwise rfl (fun a b => !a || b) (by decide) _ (fun k hk => by simp [hk])
  case d => exact sets_bitwise (s := s) rfl (fun a _ => a) (by decide) _ (by simp)
  case cimpl => exact sets_bitwise rfl (fun a b => a || !b) (by decide) _ (fun k hk => by simp [hk])
  case or => exact sets_bitwise rfl (fun a b => a || b) (by decide) _ (by simp)
  case true =>
    have sets := sets_bitwise (i := .bitTrue d s) (st := st) rfl (fun _ _ => true) (by decide)
      (BitVec.allOnes st.cfg.width.bits) (by simp)
    rwa [BitVec.toNat_allOnes] at sets

end Sys2Proof.Machine
end

