-- ==== Sys2Proof/Proofs/Arithmetic.lean ====
section
/-! The Arithmetic instructions (41_arithmetic.md R140 to R162): the value of each operation as a number,
once for words; a literal form is its register form on the word that the literal stands for. -/

namespace Sys2Proof.Machine

/-! ### The operations as numbers (R157, R158) -/

theorem toNat_sub_eq_ite {w : WordSize} (d s : Word w) :
    (d - s).toNat = if s.toNat ≤ d.toNat then d.toNat - s.toNat else d.toNat + 2 ^ w.bits - s.toNat := by
  have hd := d.isLt
  have hs := s.isLt
  rw [BitVec.toNat_sub]
  split
  · rw [show 2 ^ w.bits - s.toNat + d.toNat = d.toNat - s.toNat + 2 ^ w.bits by omega, Nat.add_mod_right,
      Nat.mod_eq_of_lt (by omega)]
  · rw [Nat.mod_eq_of_lt (by omega)]
    omega

theorem toNat_shiftLeft {w : WordSize} (d s : Word w) :
    (shiftLeft d s).toNat = if w.bits ≤ s.toNat then 0 else d.toNat * 2 ^ s.toNat % 2 ^ w.bits := by
  unfold shiftLeft
  split
  · exact BitVec.toNat_zero
  · rw [BitVec.toNat_shiftLeft, Nat.shiftLeft_eq]

theorem toNat_shiftRight {w : WordSize} (d s : Word w) :
    (shiftRight d s).toNat = if w.bits ≤ s.toNat then 0 else d.toNat / 2 ^ s.toNat := by
  unfold shiftRight
  split
  · exact BitVec.toNat_zero
  · rw [BitVec.toNat_ushiftRight, Nat.shiftRight_eq_div_pow]

theorem toNat_shiftArith {w : WordSize} (d s : Word w) :
    (shiftArith d s).toNat =
      ((d.toInt / (2 : Int) ^ (min s.toNat (w.bits - 1))) % (2 : Int) ^ w.bits).toNat := by
  rw [shiftArith, BitVec.sshiftRight, BitVec.toNat_ofInt, Int.shiftRight_eq_div_pow]
  norm_cast

/-! ### Register forms -/

/-- Settles O17. -/
theorem addAndSubtract : Obligations.AddAndSubtract := fun d s _ =>
  ⟨sets_of_value (i := .add d s) rfl (BitVec.toNat_add _ _), sets_of_value (i := .sub d s) rfl (toNat_sub_eq_ite _ _)⟩

/-- Settles O18. -/
theorem shiftsByRegister : Obligations.ShiftsByRegister := fun d s _ =>
  ⟨sets_of_value (i := .shl d s) rfl (toNat_shiftLeft _ _), sets_of_value (i := .shr d s) rfl (toNat_shiftRight _ _),
    sets_of_value (i := .asr d s) rfl (toNat_shiftArith _ _)⟩

theorem exec_mul {s : State} (h : s.cfg.hasMul = true) (d r : Reg) :
    exec (.mul d r) s = .next (s.setReg d (s.reg d * s.reg r)) := withMultiplier_of_hasMul h _

theorem exec_div {s : State} (h : s.cfg.hasMul = true) (d : Reg) {r : Reg} (hr : s.reg r ≠ 0#s.W) :
    exec (.div d r) s = .next (s.setReg d (s.reg d / s.reg r)) := divideOp_of_ne_zero h hr _

theorem exec_mod {s : State} (h : s.cfg.hasMul = true) (d : Reg) {r : Reg} (hr : s.reg r ≠ 0#s.W) :
    exec (.mod d r) s = .next (s.setReg d (s.reg d % s.reg r)) := divideOp_of_ne_zero h hr _

/-- A word whose number is not 0 is not the word 0. -/
theorem ne_zero_of_toNat_ne_zero {w : WordSize} {v : Word w} (h : v.toNat ≠ 0) : v ≠ 0#w.bits := by
  rintro rfl
  exact h BitVec.toNat_zero

/-- Settles O19. -/
theorem multiplyDivideModulo : Obligations.MultiplyDivideModulo := by
  intro d s st hasMul
  refine ⟨sets_of_value (exec_mul hasMul d s) (BitVec.toNat_mul _ _), fun divisor => ⟨?div, ?mod⟩⟩
  case div => exact sets_of_value (exec_div hasMul d (ne_zero_of_toNat_ne_zero divisor)) BitVec.toNat_udiv
  case mod => exact sets_of_value (exec_mod hasMul d (ne_zero_of_toNat_ne_zero divisor)) BitVec.toNat_umod

/-! ### Literal forms (R140) -/

theorem toNat_nibble {n : Nat} (w : WordSize) (h : n < 16) : (literal w n).toNat = n :=
  toNat_literal w (h.trans (by decide))

theorem exec_mulImm {s : State} (h : s.cfg.hasMul = true) (d : Reg) (n : Nat) :
    exec (.mulImm d n) s = .next (s.setReg d (s.reg d * literal s.cfg.width n)) := withMultiplier_of_hasMul h _

theorem exec_divImm {s : State} (h : s.cfg.hasMul = true) (d : Reg) {n : Nat} (hn : literal s.cfg.width n ≠ 0#s.W) :
    exec (.divImm d n) s = .next (s.setReg d (s.reg d / literal s.cfg.width n)) := divideOp_of_ne_zero h hn _

theorem exec_modImm {s : State} (h : s.cfg.hasMul = true) (d : Reg) {n : Nat} (hn : literal s.cfg.width n ≠ 0#s.W) :
    exec (.modImm d n) s = .next (s.setReg d (s.reg d % literal s.cfg.width n)) := divideOp_of_ne_zero h hn _

theorem literal_ne_zero {n : Nat} (w : WordSize) (h : n < 16) (h0 : n ≠ 0) : literal w n ≠ 0#w.bits :=
  ne_zero_of_toNat_ne_zero (by rwa [toNat_nibble w h])

/-- Settles O20: a 4-bit count is below `W`, so no shift of this group is cut off. -/
theorem literalAddSubtractShift : Obligations.LiteralAddSubtractShift := by
  intro d n st hn
  have value : (literal st.cfg.width n).toNat = n := toNat_nibble st.cfg.width hn
  have below : n < st.W := hn.trans_le (WordSize.sixteen_le_bits st.cfg.width)
  refine ⟨?add, ?sub, ?shl, ?shr, ?asr⟩
  case add => exact sets_of_value (i := .addImm d n) rfl (by rw [BitVec.toNat_add, value])
  case sub => exact sets_of_value (i := .subImm d n) rfl (by rw [toNat_sub_eq_ite, value])
  case shl =>
    exact sets_of_value (i := .shlImm d n) rfl (by rw [toNat_shiftLeft, value, if_neg (Nat.not_le.2 below)])
  case shr =>
    exact sets_of_value (i := .shrImm d n) rfl (by rw [toNat_shiftRight, value, if_neg (Nat.not_le.2 below)])
  case asr =>
    exact sets_of_value (i := .asrImm d n) rfl
      (by rw [toNat_shiftArith, value, Nat.min_eq_left (Nat.le_sub_one_of_lt below)])

/-- Settles O21. -/
theorem literalMultiplyDivideModulo : Obligations.LiteralMultiplyDivideModulo := by
  intro d n st hasMul hn
  have value : (literal st.cfg.width n).toNat = n := toNat_nibble st.cfg.width hn
  refine ⟨sets_of_value (exec_mulImm hasMul d n) (by rw [BitVec.toNat_mul, value]), fun h0 => ⟨?div, ?mod⟩⟩
  case div =>
    exact sets_of_value (exec_divImm hasMul d (literal_ne_zero _ hn h0)) (by rw [BitVec.toNat_udiv, value])
  case mod =>
    exact sets_of_value (exec_modImm hasMul d (literal_ne_zero _ hn h0)) (by rw [BitVec.toNat_umod, value])

/-- Settles O24: the two forms compute one result from two names of one operand. -/
theorem literalFormsAgreeWithRegisterForms : Obligations.LiteralFormsAgreeWithRegisterForms := by
  intro d r n st hn hr
  have operand : literal st.cfg.width n = st.reg r :=
    BitVec.eq_of_toNat_eq ((toNat_nibble st.cfg.width hn).trans hr.symm)
  have same (result : Word st.cfg.width → Word st.cfg.width) :
      writeResult d st (result (literal st.cfg.width n)) = writeResult d st (result (st.reg r)) := by rw [operand]
  refine ⟨same _, same _, same _, same _, same _, fun hasMul => ⟨?mul, fun h0 => ⟨?div, ?mod⟩⟩⟩
  case mul => rw [exec_mulImm hasMul, exec_mul hasMul, operand]
  all_goals have nonzero : literal st.cfg.width n ≠ 0#st.W := literal_ne_zero _ hn h0
  case div => rw [exec_divImm hasMul d nonzero, exec_div hasMul d (operand ▸ nonzero), operand]
  case mod => rw [exec_modImm hasMul d nonzero, exec_mod hasMul d (operand ▸ nonzero), operand]

/-! ### Stops (R160, R161) -/

/-- Settles O22. -/
theorem noMultiplierStops : Obligations.NoMultiplierStops := fun _ _ _ _ absent =>
  ⟨withMultiplier_of_not_hasMul absent _, withMultiplier_of_not_hasMul absent _, withMultiplier_of_not_hasMul absent _,
    withMultiplier_of_not_hasMul absent _, withMultiplier_of_not_hasMul absent _, withMultiplier_of_not_hasMul absent _⟩

/-- A division by a word that is 0 stops. -/
theorem divideOp_of_eq_zero {iw : BitVec 16} {d : Reg} {s : State} (hasMul : s.cfg.hasMul = true)
    {divisor : Word s.cfg.width} (h : divisor = 0#s.W) (result : Word s.cfg.width) :
    divideOp iw d s divisor result = .fault (.divideByZero iw) :=
  h ▸ divideOp_of_zero hasMul result

/-- Settles O23. -/
theorem divideByZeroStops : Obligations.DivideByZeroStops := by
  intro d s st hasMul
  refine ⟨fun h => ?register, divideOp_of_eq_zero hasMul rfl _, divideOp_of_eq_zero hasMul rfl _⟩
  have zero : st.reg s = 0#st.W := BitVec.eq_of_toNat_eq (h.trans BitVec.toNat_zero.symm)
  exact ⟨divideOp_of_eq_zero hasMul zero _, divideOp_of_eq_zero hasMul zero _⟩

end Sys2Proof.Machine
end

