-- ==== Sys2Proof/Proofs/Comparison.lean ====
section
/-! The Comparison instructions (42_comparison.md R170 to R188). The final test is read once as a
proposition about the two operands as numbers; each named Comparison is one setting of its flags. -/

namespace Sys2Proof.Machine

/-! ### The test as a proposition (R170, R188) -/

theorem greater_iff {w : WordSize} {sg : Bool} {d s : Word w} :
    greater sg d s = true ↔ if sg = true then d.toInt > s.toInt else d.toNat > s.toNat := by
  cases sg
  · exact BitVec.ult_iff_lt
  · exact BitVec.slt_iff_toInt_lt

theorem internalTest_iff {w : WordSize} {f : CmpFlags} {d s : Word w} :
    internalTest f d s = true ↔ (f.e = true ∧ d.toNat = s.toNat) ∨
      (f.g = true ∧ if f.sg = true then d.toInt > s.toInt else d.toNat > s.toNat) := by
  rw [internalTest, Bool.or_eq_true_iff, Bool.and_eq_true_iff, Bool.and_eq_true_iff, greater_iff, beq_iff_eq,
    BitVec.toNat_inj]

theorem finalTest_iff {w : WordSize} {f : CmpFlags} {d s : Word w} :
    finalTest f d s = true ↔ if f.inv = true then ¬ internalTest f d s = true else internalTest f d s = true := by
  unfold finalTest
  cases f.inv <;> simp

theorem toNat_ofBool (w : WordSize) (b : Bool) : (Word.ofBool b : Word w).toNat = if b = true then 1 else 0 := by
  cases b
  · exact BitVec.toNat_zero
  · exact toNat_literal w (n := 1) (by decide)

/-- The flags of the Comparison with `F = 8*Inv + 4*Sg + 2*G + E` (30_encoding.md R95). -/
def flagsOf (f : Nat) : CmpFlags := ⟨f.testBit 3, f.testBit 2, f.testBit 1, f.testBit 0⟩

theorem exec_decodeCmp (f : Fin 16) (d s : Reg) (st : State) :
    exec (decodeCmp f.val d s) st = compare (flagsOf f.val) d s st := by
  fin_cases f <;> rfl

/-- A Comparison sets `x[D]` to 1 or 0 by any proposition that its final test decides. -/
theorem sets_compare {i : Instr} {f : CmpFlags} {d s : Reg} {st : State} (h : exec i st = compare f d s st)
    {P : Prop} [Decidable P] (test : finalTest f (st.reg d) (st.reg s) = true ↔ P) :
    Sets i d (if P then 1 else 0) st :=
  sets_of_value h (by rw [cmpResult, toNat_ofBool]; exact if_congr test rfl rfl)

/-- Settles O25: the final test of the statement is that of the flags in `F`, and what is written is 1 or
0 by it. -/
theorem comparisonWritesFinalTest : Obligations.ComparisonWritesFinalTest := by
  intro f d s st internal final hi hf
  have internal_iff : internalTest (flagsOf f.val) (st.reg d) (st.reg s) = true ↔ internal :=
    internalTest_iff.trans hi.symm
  have final_iff : finalTest (flagsOf f.val) (st.reg d) (st.reg s) = true ↔ final := by
    rw [finalTest_iff, hf, internal_iff]
    rfl
  classical
  obtain ⟨t, ht, value, others, system, memory⟩ := sets_compare (exec_decodeCmp f d s st) final_iff
  refine ⟨t, ht, fun h => ?_, fun h => ?_, others, system, memory⟩
  · rw [value, if_pos h]; exact Nat.one_ne_zero
  · rw [value, if_neg h]

/-! ### Closed forms -/

/-- Settles O26: equality and the unsigned order, or no test at all. -/
theorem unsignedComparisons : Obligations.UnsignedComparisons := by
  intro d s st
  refine ⟨?cmp, ?cmpE, ?cmpG, ?cmpEG, ?cmpS, ?cmpES, ?cmpI, ?cmpEI, ?cmpGI, ?cmpEGI, ?cmpSI, ?cmpESI⟩
  case cmp => exact sets_compare (P := False) rfl (by simp [finalTest_iff, internalTest_iff])
  case cmpE => exact sets_compare rfl (by simp [finalTest_iff, internalTest_iff])
  case cmpG => exact sets_compare rfl (by simp [finalTest_iff, internalTest_iff])
  case cmpEG => exact sets_compare rfl (by simp [finalTest_iff, internalTest_iff, State.x]; omega)
  case cmpS => exact sets_compare (P := False) rfl (by simp [finalTest_iff, internalTest_iff])
  case cmpES => exact sets_compare rfl (by simp [finalTest_iff, internalTest_iff])
  case cmpI => exact sets_compare (P := True) rfl (by simp [finalTest_iff, internalTest_iff])
  case cmpEI => exact sets_compare rfl (by simp [finalTest_iff, internalTest_iff])
  case cmpGI => exact sets_compare rfl (by simp [finalTest_iff, internalTest_iff])
  case cmpEGI => exact sets_compare rfl (by simp [finalTest_iff, internalTest_iff, State.x]; omega)
  case cmpSI => exact sets_compare (P := True) rfl (by simp [finalTest_iff, internalTest_iff])
  case cmpESI => exact sets_compare rfl (by simp [finalTest_iff, internalTest_iff])

/-- Settles O27: the signed order; equal numbers of either kind are equal words. -/
theorem signedComparisons : Obligations.SignedComparisons := by
  intro d s st
  have equal : st.x d = st.x s ↔ (st.reg d).toInt = (st.reg s).toInt := BitVec.toNat_inj.trans BitVec.toInt_inj.symm
  refine ⟨?cmpGS, ?cmpEGS, ?cmpGSI, ?cmpEGSI⟩
  case cmpGS => exact sets_compare rfl (by simp [finalTest_iff, internalTest_iff])
  case cmpEGS => exact sets_compare rfl (by simp only [finalTest_iff, internalTest_iff, equal]; simp; omega)
  case cmpGSI => exact sets_compare rfl (by simp [finalTest_iff, internalTest_iff])
  case cmpEGSI => exact sets_compare rfl (by simp only [finalTest_iff, internalTest_iff, equal]; simp; omega)

/-! ### The signed order by the flipped sign bit (R188) -/

/-- Flipping a bit that is clear, with nothing above it, adds its weight. -/
theorem xor_two_pow_of_lt {x k : Nat} (h : x < 2 ^ k) : x ^^^ 2 ^ k = x + 2 ^ k := by
  refine Nat.eq_of_testBit_eq fun i => ?_
  rw [Nat.testBit_xor, Nat.testBit_two_pow, Nat.add_comm]
  rcases Nat.lt_trichotomy i k with hi | rfl | hi
  · simp [Nat.testBit_two_pow_add_gt hi, hi.ne']
  · simp [Nat.testBit_two_pow_add_eq]
  · have small : 2 ^ k + x < 2 ^ i :=
      calc 2 ^ k + x < 2 ^ (k + 1) := by rw [Nat.pow_succ]; omega
        _ ≤ 2 ^ i := Nat.pow_le_pow_right (by decide) hi
    simp [Nat.testBit_lt_two_pow small, Nat.testBit_lt_two_pow (Nat.lt_of_le_of_lt (Nat.le_add_left x _) small), hi.ne]

/-- Flipping a bit that is set, with nothing above it, takes its weight away: it is the former flip undone. -/
theorem xor_two_pow_of_ge {x k : Nat} (low : 2 ^ k ≤ x) (high : x < 2 ^ (k + 1)) : x ^^^ 2 ^ k = x - 2 ^ k := by
  have rest : x - 2 ^ k < 2 ^ k := by rw [Nat.pow_succ] at high; omega
  have flipped : (x - 2 ^ k) ^^^ 2 ^ k = x := by rw [xor_two_pow_of_lt rest]; omega
  conv_lhs => rw [← flipped]
  rw [Nat.xor_assoc, Nat.xor_self, Nat.xor_zero]

/-- With its sign bit flipped a value counts from the least signed number. -/
theorem toNat_flip_sign {k : Nat} (v : BitVec (k + 1)) :
    ((v ^^^ BitVec.ofNat (k + 1) (2 ^ k)).toNat : Int) = v.toInt + (2 : Int) ^ k := by
  have hv := v.isLt
  have fits : 2 ^ k < 2 ^ (k + 1) := Nat.pow_lt_pow_succ (by decide)
  have double : 2 ^ (k + 1) = 2 * 2 ^ k := Nat.pow_succ'
  rw [BitVec.toNat_xor, BitVec.toNat_ofNat, BitVec.toInt_eq_toNat_cond, Nat.mod_eq_of_lt fits]
  rcases Nat.lt_or_ge v.toNat (2 ^ k) with clear | set
  · rw [xor_two_pow_of_lt clear, if_pos (by omega)]
    push_cast
    rfl
  · rw [xor_two_pow_of_ge set hv, if_neg (by omega), Nat.cast_sub set]
    push_cast
    ring

theorem Word.toNat_flip_sign {w : WordSize} (v : Word w) :
    ((v ^^^ BitVec.ofNat w.bits (2 ^ (w.bits - 1))).toNat : Int) = v.toInt + (2 : Int) ^ (w.bits - 1) := by
  cases w with
  | w16 => exact Machine.toNat_flip_sign (k := 15) v
  | w32 => exact Machine.toNat_flip_sign (k := 31) v
  | w64 => exact Machine.toNat_flip_sign (k := 63) v

/-- Settles O28: both sides compare numbers that differ from the signed operands by one constant. -/
theorem signedOrderByFlippedSignBit : Obligations.SignedOrderByFlippedSignBit := by
  intro w d s
  have hd := Word.toNat_flip_sign d
  have hs := Word.toNat_flip_sign s
  rw [Bool.eq_iff_iff, greater_iff, greater_iff, if_pos rfl, if_neg Bool.false_ne_true]
  omega

end Sys2Proof.Machine
end

