-- ==== Sys2Proof/Proofs/Control.lean ====
section
/-! Conditional and Jump and Link (43_conditional.md R200, 44_jump_and_link.md R205): the address
arithmetic of a branch and the order of the two writes of a jump. -/

namespace Sys2Proof.Machine

/-! ### Conditional -/

theorem exec_jc (c : Reg) (off : Int) (s : State) : exec (.jc c off) s = .next (s.setReg Reg.pc
    (if s.reg c ≠ 0#s.cfg.width.bits then s.pc + displacement s.cfg.width off else s.pc)) := rfl

/-- The target of a branch, for a displacement of either sign (R201). -/
theorem toNat_add_displacement {w : WordSize} (v : Word w) (off : Int) :
    (v + displacement w off).toNat = (((v.toNat : Int) + 2 * off) % (2 : Int) ^ w.bits).toNat := by
  have wrap : ((v.toNat : Int) + 2 * off) % (2 : Int) ^ w.bits =
      ((v.toNat + (2 * off % (2 : Int) ^ w.bits).toNat : Nat) % (2 ^ w.bits : Nat) : Nat) := by
    have nonneg : 0 ≤ 2 * off % (2 : Int) ^ w.bits := Int.emod_nonneg _ (by positivity)
    push_cast
    rw [Int.toNat_of_nonneg nonneg, Int.add_emod_emod]
  rw [wrap, Int.toNat_natCast, BitVec.toNat_add, displacement, BitVec.toNat_ofInt]
  push_cast
  rfl

/-- Settles O29. -/
theorem conditionalBranches : Obligations.ConditionalBranches := by
  intro c off s _ _
  refine sets_of_value (exec_jc c off s) ?_
  have taken : s.reg c ≠ 0#s.cfg.width.bits ↔ s.x c ≠ 0 :=
    ⟨fun ne e => ne (BitVec.eq_of_toNat_eq (e.trans BitVec.toNat_zero.symm)), ne_zero_of_toNat_ne_zero⟩
  rw [apply_ite BitVec.toNat, toNat_add_displacement]
  exact if_congr taken rfl rfl

/-! ### Jump and Link -/

/-- The registers after a jump, linked first and then redirected (D19). -/
theorem reg_after_jal {l p : Reg} {s t : State} (h : exec (.jal l p) s = .next t) :
    t.x Reg.pc = (if p = l then s.x Reg.pc else s.x p) ∧ (l ≠ Reg.pc → t.x l = s.x Reg.pc) := by
  obtain rfl := execJal_next h
  constructor
  · have target := RegFile.read_write_same (RegFile.write s.regs l s.pc) Reg.pc
      (RegFile.read (RegFile.write s.regs l s.pc) p)
    refine (congrArg BitVec.toNat (target.trans (RegFile.read_write s.regs l p s.pc))).trans ?_
    exact apply_ite BitVec.toNat _ _ _
  · intro ne
    have link := RegFile.read_write_of_ne (RegFile.write s.regs l s.pc) ne
      (RegFile.read (RegFile.write s.regs l s.pc) p)
    exact congrArg BitVec.toNat (link.trans (RegFile.read_write_same s.regs l s.pc))

/-- Settles O30: the two registers by the order of the writes, everything else by the frames of all
instructions. -/
theorem jumpAndLink : Obligations.JumpAndLink := by
  intro l p s
  obtain ⟨t, h⟩ : ∃ t, exec (.jal l p) s = .next t := ⟨_, rfl⟩
  obtain ⟨target, link⟩ := reg_after_jal h
  refine ⟨t, h, target, link, fun j hj => registersChangeOnlyAsNamed _ _ _ j h hj, ?_⟩
  obtain rfl := execJal_next h
  exact ⟨⟨rfl, rfl, rfl, rfl, rfl, rfl, rfl⟩, fun _ => rfl⟩

end Sys2Proof.Machine
end

