-- ==== Sys2Proof/Proofs/Subword.lean ====
section
/-! Subword (45_subword.md R210, R211): bit `i` of the result is bit `8*Bi + i` of the register for `i`
below the byte count. The byte form and the manual's mask-and-shift listing are both read off that. -/

namespace Sys2Proof.Machine

/-! ### The bits of a byte run -/

/-- A bit of the run, which is 0 where the register has no such bit (R210 (b)). -/
theorem getLsbD_subwordOf {w : WordSize} (v : Word w) (bi b i : Nat) :
    (subwordOf v bi b).getLsbD i = (decide (i < 8 * subwordBytes b) && v.getLsbD (8 * bi + i)) := by
  unfold subwordOf
  split
  · next above =>
    have beyond : v.getLsbD (8 * bi + i) = false := v.getLsbD_of_ge _ (by omega)
    simp [beyond]
  · rw [BitVec.getLsbD_setWidth, BitVec.getLsbD_setWidth, BitVec.getLsbD_ushiftRight]
    by_cases hi : i < w.bits
    · simp [hi]
    · have beyond : v.getLsbD (8 * bi + i) = false := v.getLsbD_of_ge _ (by omega)
      simp [beyond]

theorem toNat_subwordOf {w : WordSize} (v : Word w) (bi b : Nat) : (subwordOf v bi b).toNat =
    if 8 * bi ≥ w.bits then 0 else v.toNat / 2 ^ (8 * bi) % 2 ^ (8 * subwordBytes b) := by
  unfold subwordOf
  split
  · exact BitVec.toNat_zero
  · have below : v.toNat / 2 ^ (8 * bi) % 2 ^ (8 * subwordBytes b) < 2 ^ w.bits :=
      calc v.toNat / 2 ^ (8 * bi) % 2 ^ (8 * subwordBytes b) ≤ v.toNat / 2 ^ (8 * bi) := Nat.mod_le _ _
        _ ≤ v.toNat := Nat.div_le_self _ _
        _ < 2 ^ w.bits := v.isLt
    rw [BitVec.toNat_setWidth, BitVec.toNat_setWidth, BitVec.toNat_ushiftRight, Nat.shiftRight_eq_div_pow,
      Nat.mod_eq_of_lt below]

theorem byteOf_subwordOf {w : WordSize} (v : Word w) (bi b k : Nat) : byteOf (subwordOf v bi b) k =
    if k < subwordBytes b ∧ bi + k < w.bytes then byteOf v (bi + k) else 0#8 := by
  refine BitVec.eq_of_getLsbD_eq fun i hi => ?_
  have width : w.bits = 8 * w.bytes := rfl
  have place : 8 * bi + (8 * k + i) = 8 * (bi + k) + i := by omega
  have bit : (byteOf (subwordOf v bi b) k).getLsbD i =
      (decide (k < subwordBytes b) && v.getLsbD (8 * (bi + k) + i)) := by
    have inRun : 8 * k + i < 8 * subwordBytes b ↔ k < subwordBytes b := by omega
    simp only [byteOf, BitVec.getLsbD_extractLsb', hi, decide_true, Bool.true_and, getLsbD_subwordOf, place, inRun]
  rw [bit]
  split
  · next inside => simp [byteOf, hi, inside.1]
  · next outside =>
    rcases not_and_or.1 outside with short | beyond
    · simp [short]
    · have none : v.getLsbD (8 * (bi + k) + i) = false := v.getLsbD_of_ge _ (by omega)
      simp [none]

theorem exec_subword (d : Reg) (bi b : Nat) (s : State) :
    exec (.subword d bi b) s = .next (s.setReg d (subwordOf (s.reg d) bi b)) := rfl

/-- Settles O33. -/
theorem subwordSelectsBytes : Obligations.SubwordSelectsBytes := by
  intro d bi b s _ _
  refine ⟨sets_of_value (exec_subword d bi b s) (toNat_subwordOf _ bi b), _, exec_subword d bi b s, fun k => ?_⟩
  rw [s.reg_setReg_same]
  exact byteOf_subwordOf (s.reg d) bi b k

/-! ### The listing (R211) -/

theorem getLsbD_shiftLeft {w : WordSize} (d s : Word w) (i : Nat) :
    (shiftLeft d s).getLsbD i = (decide (i < w.bits) && !decide (i < s.toNat) && d.getLsbD (i - s.toNat)) := by
  unfold shiftLeft
  split
  · next whole =>
    by_cases hi : i < w.bits
    · simp [hi.trans_le whole]
    · simp [hi]
  · exact BitVec.getLsbD_shiftLeft d _

theorem getLsbD_shiftRight {w : WordSize} (d s : Word w) (i : Nat) :
    (shiftRight d s).getLsbD i = d.getLsbD (s.toNat + i) := by
  unfold shiftRight
  split
  · rw [d.getLsbD_of_ge _ (by omega), BitVec.getLsbD_zero]
  · exact BitVec.getLsbD_ushiftRight d _ i

/-- `(1 << n) - 1` has ones below bit `n`; with `n` of `W` or more the shift gives 0 and the subtraction
wraps to all ones (D14, D15). -/
theorem getLsbD_low_mask {w : WordSize} {s : Word w} {i : Nat} (hi : i < w.bits) :
    (shiftLeft (literal w 1) s - literal w 1).getLsbD i = decide (i < s.toNat) := by
  have one : (literal w 1).toNat = 1 := toNat_literal w (by decide)
  have value : (shiftLeft (literal w 1) s - literal w 1).toNat = 2 ^ min s.toNat w.bits - 1 := by
    rw [toNat_sub_eq_ite, toNat_shiftLeft, one]
    rcases Nat.lt_or_ge s.toNat w.bits with short | whole
    · rw [if_neg (Nat.not_le.2 short), Nat.one_mul, Nat.mod_eq_of_lt (Nat.pow_lt_pow_right (by decide) short),
        if_pos (Nat.one_le_two_pow), Nat.min_eq_left short.le]
    · rw [if_pos whole, if_neg (by decide), Nat.zero_add, Nat.min_eq_right whole]
  rw [BitVec.getLsbD, value, Nat.testBit_two_pow_sub_one]
  simp [hi]

/-- The listing computes the byte run. -/
theorem listing_eq_subwordOf {w : WordSize} (v : Word w) {bi b : Nat} (hbi : bi < 16) (hb : b < 8) :
    shiftRight (v &&& shiftLeft (shiftLeft (literal w 1) (literal w (8 * subwordBytes b)) - literal w 1)
      (literal w (8 * bi))) (literal w (8 * bi)) = subwordOf v bi b := by
  have bytes : subwordBytes b ≤ 8 := by unfold subwordBytes; split <;> omega
  have count : (literal w (8 * subwordBytes b)).toNat = 8 * subwordBytes b := toNat_literal w (by omega)
  have index : (literal w (8 * bi)).toNat = 8 * bi := toNat_literal w (by omega)
  refine BitVec.eq_of_getLsbD_eq fun i hi => ?_
  rw [getLsbD_shiftRight, BitVec.getLsbD_and, getLsbD_shiftLeft, index, Nat.add_sub_cancel_left,
    getLsbD_low_mask hi, count, getLsbD_subwordOf]
  by_cases inside : 8 * bi + i < w.bits
  · simp [inside, Bool.and_comm]
  · rw [v.getLsbD_of_ge _ (by omega), Bool.false_and, Bool.and_false]

/-- Settles O34. -/
theorem subwordEqualsItsListing : Obligations.SubwordEqualsItsListing := by
  intro d bi b s hbi hb
  refine sets_of_value (exec_subword d bi b s) ?_
  exact congrArg BitVec.toNat (listing_eq_subwordOf (s.reg d) hbi hb).symm

end Sys2Proof.Machine
end

