-- ==== Sys2Proof/Proofs/SystemRegisters.lean ====
section
/-! System Register access (46_system_registers.md R215 to R218): which numbers may be read and written,
and what each access leaves. -/

namespace Sys2Proof.Machine

/-! ### Reads -/

theorem exec_srr_of_readable {r : Reg} {n : Nat} {s : State} {v : Word s.cfg.width} (h : readSysReg s n = some v) :
    exec (.srr r n) s = .next { s.afterSysRead n with regs := RegFile.write s.regs r v } := by
  simp only [exec, execSrr, h]

/-- Every read but that of SR 5 is a register write and nothing else. -/
theorem sets_srr {r : Reg} {n : Nat} {s : State} {v : Word s.cfg.width} {x : Nat} (h : readSysReg s n = some v)
    (notDraw : n ≠ 5) (value : v.toNat = x) : Sets (.srr r n) r x s := by
  have draws : (s.afterSysRead n).draws = s.draws := if_neg notDraw
  refine sets_of_value ((exec_srr_of_readable h).trans ?_) value
  exact congrArg (fun k => Host.Outcome.next { s with regs := RegFile.write s.regs r v, draws := k }) draws

/-- Settles O36: 64, the largest word size, fits every word. -/
theorem srrReadsConstants : Obligations.SrrReadsConstants := by
  intro r s
  have width : s.cfg.width.bits < 2 ^ s.cfg.width.bits := Nat.lt_two_pow_self
  exact ⟨sets_srr rfl (by decide) rfl,
    sets_srr rfl (by decide) ((BitVec.toNat_ofNat _ _).trans (Nat.mod_eq_of_lt width)), sets_srr rfl (by decide) rfl⟩

/-- Settles O37. -/
theorem srrReadsStoredRegisters : Obligations.SrrReadsStoredRegisters := fun _ s =>
  ⟨sets_srr rfl (by decide) rfl, sets_srr rfl (by decide) rfl,
    sets_srr rfl (by decide) (toNat_ofBool s.cfg.width s.cfg.hasMul)⟩

/-- Settles O38. -/
theorem srrCyclesIsADraw : Obligations.SrrCyclesIsADraw := fun _ _ => exec_srr_of_readable rfl

/-! ### Writes -/

theorem exec_srw (n : Nat) (r : Reg) (s : State) :
    exec (.srw n r) s = writeSysReg s n (s.reg r) (encode (.srw n r)) := rfl

/-- A value below 2 has no bit above bit 0. -/
theorem shiftRight_one_eq_zero_iff {w : WordSize} {v : Word w} : v >>> 1 = 0#w.bits ↔ v.toNat < 2 := by
  rw [← BitVec.toNat_inj, BitVec.toNat_ushiftRight, BitVec.toNat_zero, Nat.shiftRight_eq_div_pow]
  omega

theorem exec_srw_three {r : Reg} {s : State} (h : s.x r < 2) :
    exec (.srw 3 r) s = .next { s with halted := s.halted || (s.reg r).getLsbD 0 } := by
  have above : (s.reg r) >>> 1 = 0#s.cfg.width.bits := shiftRight_one_eq_zero_iff.2 h
  simp only [exec_srw, writeSysReg, above, ne_eq, not_true_eq_false, if_false]

theorem getLsbD_zero_eq_decide {w : WordSize} (v : Word w) : v.getLsbD 0 = decide (v.toNat % 2 = 1) := by
  rw [getLsbD_eq_decide_digit, Nat.pow_zero, Nat.div_one]

/-- Settles O39. -/
theorem srwEffects : Obligations.SrwEffects := by
  intro r s
  refine ⟨rfl, rfl, rfl, ?out, fun h => ?zero, fun h => ?one⟩
  case out =>
    have low : byteOf (s.reg r) 0 = BitVec.ofNat 8 (s.x r) := by
      refine BitVec.eq_of_toNat_eq ?_
      rw [byteOf, BitVec.extractLsb'_toNat, BitVec.toNat_ofNat, Nat.mul_zero, Nat.shiftRight_zero]
    rw [← low]
    rfl
  case zero =>
    have bit : (s.reg r).getLsbD 0 = false := by
      rw [getLsbD_zero_eq_decide, show (s.reg r).toNat = 0 from h]
      rfl
    rw [exec_srw_three (by omega), bit, Bool.or_false]
  case one =>
    have bit : (s.reg r).getLsbD 0 = true := by
      rw [getLsbD_zero_eq_decide, show (s.reg r).toNat = 1 from h]
      rfl
    rw [exec_srw_three (by omega), bit, Bool.or_true]

/-- Settles O41. -/
theorem sr3ReservedBitsStop : Obligations.Sr3ReservedBitsStop := by
  intro r s h
  have above : (s.reg r) >>> 1 ≠ 0#s.cfg.width.bits := mt shiftRight_one_eq_zero_iff.1 (Nat.not_lt.2 h)
  simp only [StopsWith, exec_srw, writeSysReg, if_pos above, stop]

/-! ### Accesses that the table does not allow (R217) -/

theorem readSysReg_eq_none {s : State} {n : Nat} (h : n ∉ [0, 1, 2, 4, 5, 6, 7]) : readSysReg s n = none := by
  rw [← Option.not_isSome_iff_eq_none, readSysReg_isSome]
  simpa using h

theorem writeSysReg_eq_stop {s : State} {n : Nat} {v : Word s.cfg.width} {iw : BitVec 16}
    (h : n ∉ [2, 3, 4, 5, 10]) : writeSysReg s n v iw = .fault (.srAccess iw) := by
  unfold writeSysReg
  split
  case h_6 => rfl
  all_goals exact absurd (by decide) h

/-- Settles O40. -/
theorem srAccessStops : Obligations.SrAccessStops := by
  intro r n s
  refine ⟨fun h => ?_, fun h => writeSysReg_eq_stop h⟩
  simp only [StopsWith, exec, execSrr, readSysReg_eq_none h, stop]

end Sys2Proof.Machine
end

