-- ==== Sys2Proof/Proofs/DataTransfer.lean ====
section
/-! Data Transfer (48_data_transfer.md R245 to R251). Each phase gets one equation per form of its
operand, in the terms of Safety.lean; what XF does and where it stops is their composition. -/

namespace Sys2Proof.Machine

/-! ### Stepping by the word size (R246) -/

theorem toNat_step (w : WordSize) : (Word.step w).toNat = w.bytes :=
  (BitVec.toNat_ofNat _ _).trans
    (Nat.mod_eq_of_lt ((WordSize.bytes_le w).trans_lt (by cases w <;> decide)))

theorem toNat_add_step {w : WordSize} (v : Word w) : (v + Word.step w).toNat = (v.toNat + w.bytes) % 2 ^ w.bits := by
  rw [BitVec.toNat_add, toNat_step]

theorem toNat_sub_step {w : WordSize} (v : Word w) :
    (v - Word.step w).toNat = (v.toNat + (2 ^ w.bits - w.bytes)) % 2 ^ w.bits := by
  rw [BitVec.toNat_sub, toNat_step, Nat.add_comm]

/-- Settles O45. -/
theorem modesStepByWordSize : Obligations.ModesStepByWordSize := fun _ v =>
  ⟨rfl, rfl, rfl, toNat_add_step v, toNat_sub_step v, rfl, rfl, toNat_sub_step v⟩

/-! ### The phases by the form of their operand -/

/-- The registers when an operand has been stepped before and after its access. -/
def stepped {w : WordSize} (o : Operand) (r : RegFile w) : RegFile w :=
  RegFile.update (RegFile.update r o.reg (Mode.before o.mode)) o.reg (Mode.after o.mode)

theorem read_stepped {w : WordSize} (o : Operand) (r : RegFile w) (j : Reg) : RegFile.read (stepped o r) j =
    if j = o.reg then Mode.after o.mode (Mode.before o.mode (RegFile.read r o.reg)) else RegFile.read r j := by
  simp only [stepped, RegFile.read_update, if_true]
  split <;> rfl

/-- The registers when a direct destination has taken `v` and been stepped. -/
def written {w : WordSize} (o : Operand) (v : Word w) (r : RegFile w) : RegFile w :=
  RegFile.update (RegFile.write (RegFile.update r o.reg (Mode.before o.mode)) o.reg v) o.reg (Mode.after o.mode)

theorem read_written {w : WordSize} (o : Operand) (v : Word w) (r : RegFile w) (j : Reg) :
    RegFile.read (written o v r) j = if j = o.reg then Mode.after o.mode v else RegFile.read r j := by
  simp only [written, RegFile.read_update, RegFile.read_write, if_true]
  split <;> rfl

theorem read_update_before {w : WordSize} (o : Operand) (r : RegFile w) :
    RegFile.read (RegFile.update r o.reg (Mode.before o.mode)) o.reg = Mode.before o.mode (RegFile.read r o.reg) := by
  rw [RegFile.read_update, if_pos rfl]

theorem sourcePhase_direct {c : Config} (m : Memory) {o : Operand} (r : RegFile c.width) (h : o.indirect = false) :
    sourcePhase c m o r = .ok (Mode.before o.mode (RegFile.read r o.reg), stepped o r) := by
  simp only [sourcePhase, h, read_update_before, stepped, Bool.false_eq_true, if_false]

theorem sourcePhase_load_ok {c : Config} {m : Memory} {o : Operand} {r : RegFile c.width} {v : Word c.width}
    (h : o.indirect = true) (hl : loadWord c m (Mode.before o.mode (RegFile.read r o.reg)) = .ok v) :
    sourcePhase c m o r = .ok (v, stepped o r) := by
  simp only [sourcePhase, h, read_update_before, hl, stepped, if_true]

theorem sourcePhase_load_error {c : Config} {m : Memory} {o : Operand} {r : RegFile c.width} {f : Fault}
    (h : o.indirect = true) (hl : loadWord c m (Mode.before o.mode (RegFile.read r o.reg)) = .error f) :
    sourcePhase c m o r = .error f := by
  simp only [sourcePhase, h, read_update_before, hl, if_true]

theorem destPhase_direct {c : Config} (m : Memory) {o : Operand} (v : Word c.width) (r : RegFile c.width)
    (h : o.indirect = false) : destPhase c m o v r = .ok (written o v r, m) := by
  simp only [destPhase, h, written, Bool.false_eq_true, if_false]

theorem destPhase_store_ok {c : Config} {m m' : Memory} {o : Operand} {v : Word c.width} {r : RegFile c.width}
    (h : o.indirect = true) (hs : storeWord c m (Mode.before o.mode (RegFile.read r o.reg)) v = .ok m') :
    destPhase c m o v r = .ok (stepped o r, m') := by
  simp only [destPhase, h, read_update_before, hs, stepped, if_true]

theorem destPhase_store_error {c : Config} {m : Memory} {o : Operand} {v : Word c.width} {r : RegFile c.width}
    {f : Fault} (h : o.indirect = true)
    (hs : storeWord c m (Mode.before o.mode (RegFile.read r o.reg)) v = .error f) : destPhase c m o v r = .error f := by
  simp only [destPhase, h, read_update_before, hs, if_true]

/-! ### The composition of the phases -/

theorem exec_xf_of_ok {dst src : Operand} {s : State} {v : Word s.cfg.width} {r r' : RegFile s.cfg.width} {m : Memory}
    (hs : sourcePhase s.cfg s.mem src s.regs = .ok (v, r)) (hd : destPhase s.cfg s.mem dst v r = .ok (r', m)) :
    exec (.xf dst src) s = .next { s with regs := r', mem := m } := by
  simp only [exec, execXf, hs, hd]

theorem exec_xf_of_source_error {dst src : Operand} {s : State} {f : Fault}
    (hs : sourcePhase s.cfg s.mem src s.regs = .error f) : exec (.xf dst src) s = .fault f := by
  simp only [exec, execXf, hs, stop]

theorem exec_xf_of_dest_error {dst src : Operand} {s : State} {v : Word s.cfg.width} {r : RegFile s.cfg.width}
    {f : Fault} (hs : sourcePhase s.cfg s.mem src s.regs = .ok (v, r)) (hd : destPhase s.cfg s.mem dst v r = .error f) :
    exec (.xf dst src) s = .fault f := by
  simp only [exec, execXf, hs, hd, stop]

/-! ### In the terms of the claims -/

theorem read_stepped_regs (s : State) (src : Operand) (j : Reg) :
    RegFile.read (stepped src s.regs) j = afterSource s src j :=
  read_stepped src s.regs j

theorem storeValue_eq (s : State) (dst src : Operand) :
    Mode.before dst.mode (RegFile.read (stepped src s.regs) dst.reg) = storeValue s dst src := by
  rw [read_stepped_regs, storeValue]

theorem sourcePhase_of_supplies {s : State} {src : Operand} {v : Word s.cfg.width} (h : Supplies s src v) :
    sourcePhase s.cfg s.mem src s.regs = .ok (v, stepped src s.regs) := by
  unfold Supplies at h
  split at h
  · next indirect =>
    obtain ⟨accessible, holds⟩ := h
    exact sourcePhase_load_ok indirect (memRead_eq (accessFault_eq_none_iff.2 accessible) holds)
  · next direct =>
    subst h
    exact sourcePhase_direct _ _ (Bool.eq_false_of_not_eq_true direct)

/-- XF to a register (R245, R246). -/
theorem exec_xf_direct {dst src : Operand} {s : State} {v : Word s.cfg.width} (hd : dst.indirect = false)
    (hs : Supplies s src v) :
    exec (.xf dst src) s = .next { s with regs := written dst v (stepped src s.regs) } :=
  exec_xf_of_ok (sourcePhase_of_supplies hs) (destPhase_direct _ _ _ hd)

theorem reg_after_direct (s : State) (dst src : Operand) (v : Word s.cfg.width) (j : Reg) :
    RegFile.read (written dst v (stepped src s.regs)) j =
      if j = dst.reg then Mode.after dst.mode v else afterSource s src j := by
  rw [read_written, read_stepped_regs]

/-- XF to memory (R245, R247): one word store. -/
theorem exec_xf_indirect {dst src : Operand} {s : State} {v : Word s.cfg.width} (hd : dst.indirect = true)
    (hs : Supplies s src v) (ha : Accessible s (storeValue s dst src)) :
    ∃ m, storeWord s.cfg s.mem (storeValue s dst src) v = .ok m ∧
      exec (.xf dst src) s = .next { s with regs := stepped dst (stepped src s.regs), mem := m } := by
  have stored := memWrite_eq s.mem v (accessFault_eq_none_iff.2 ha)
  exact ⟨_, stored, exec_xf_of_ok (sourcePhase_of_supplies hs)
    (destPhase_store_ok hd (by rw [storeValue_eq]; exact stored))⟩

theorem reg_after_indirect (s : State) (dst src : Operand) (j : Reg) :
    RegFile.read (stepped dst (stepped src s.regs)) j =
      if j = dst.reg then Mode.after dst.mode (storeValue s dst src) else afterSource s src j := by
  rw [read_stepped, storeValue_eq, read_stepped_regs]

/-- Settles O42. -/
theorem transferToRegister : Obligations.TransferToRegister := by
  intro dst src s v hd hs
  refine ⟨_, exec_xf_direct hd hs, fun j => ?_, ⟨rfl, rfl, rfl, rfl, rfl, rfl, rfl⟩, fun _ => rfl⟩
  exact congrArg BitVec.toNat (reg_after_direct s dst src v j)

/-- Settles O43. -/
theorem transferToMemory : Obligations.TransferToMemory := by
  intro dst src s v hd hs ha
  obtain ⟨m, stored, h⟩ := exec_xf_indirect hd hs ha
  refine ⟨_, h, fun j => ?_, getAll_of_memWrite (WordSize.bytes_le _) stored,
    fun a outside => get_of_memWrite_of_notMem stored outside, ⟨rfl, rfl, rfl, rfl, rfl, rfl, rfl⟩⟩
  exact congrArg BitVec.toNat (reg_after_indirect s dst src j)

/-! ### Stops -/

theorem xf_stops_of_load {dst src : Operand} {s : State} {f : Fault} (hi : src.indirect = true)
    (h : loadWord s.cfg s.mem (accessValue s src) = .error f) : StopsWith (.xf dst src) s f :=
  exec_xf_of_source_error (sourcePhase_load_error hi h)

theorem xf_stops_of_store {dst src : Operand} {s : State} {v : Word s.cfg.width} {f : Fault} (hs : Supplies s src v)
    (hd : dst.indirect = true) (h : accessFault s.cfg .store (storeValue s dst src) s.WB = some f) :
    StopsWith (.xf dst src) s f := by
  refine exec_xf_of_dest_error (sourcePhase_of_supplies hs) (destPhase_store_error hd ?_)
  rw [storeValue_eq]
  exact memWrite_of_accessFault h

/-- Settles O44: the faults of the load, and where the load supplies its word those of the store. -/
theorem transferStops : Obligations.TransferStops := by
  intro dst src s
  refine ⟨fun hi => ⟨fun h => ?_, fun h ⟨k, hk, hm⟩ => ?_, fun h ⟨k, hk, h0⟩ => ?_⟩,
    fun v hs hd => ⟨fun h => ?_, fun h ⟨k, hk, hm⟩ => ?_⟩⟩
  · exact xf_stops_of_load hi (memRead_of_accessFault (accessFault_of_misaligned h))
  · exact xf_stops_of_load hi (memRead_of_accessFault (accessFault_of_unmapped h hk hm))
  · exact xf_stops_of_load hi (memRead_of_unwritten (accessFault_eq_none_iff.2 h) hk h0)
  · exact xf_stops_of_store hs hd (accessFault_of_misaligned h)
  · exact xf_stops_of_store hs hd (accessFault_of_unmapped h hk hm)

/-! ### One register as source and destination (R249) -/

/-- Both direct: the destination takes the source's value and is stepped after it, whatever the source
phase has left in it. -/
theorem sets_xf_same_register (md ms : Mode) (n : Reg) (s : State) :
    Sets (.xf ⟨false, md, n⟩ ⟨false, ms, n⟩) n (Mode.after md (Mode.before ms (s.reg n))).toNat s := by
  obtain ⟨t, h, regs, system, memory⟩ := transferToRegister ⟨false, md, n⟩ ⟨false, ms, n⟩ s
    (Mode.before ms (s.reg n)) rfl rfl
  refine ⟨t, h, (regs n).trans (by rw [if_pos rfl]), fun j hj => (regs j).trans ?_, system, memory⟩
  have ne : j ≠ n := List.ne_of_not_mem_cons hj
  rw [if_neg ne, afterSource, if_neg ne]

/-- Settles O46. -/
theorem transferWithinOneRegister : Obligations.TransferWithinOneRegister := by
  intro n s
  have up := toNat_add_step (s.reg n)
  have down := toNat_sub_step (s.reg n)
  refine ⟨?_, ?_, ?_, ?_, ?_, ?_, ?_, ?_⟩
  · exact sets_xf_same_register .keep .keep n s
  · exact up ▸ sets_xf_same_register .postInc .keep n s
  · exact down ▸ sets_xf_same_register .postDec .keep n s
  · exact sets_xf_same_register .preDec .keep n s
  · exact down ▸ sets_xf_same_register .keep .preDec n s
  · exact sets_xf_same_register .keep .postInc n s
  · exact sets_xf_same_register .keep .postDec n s
  · exact up ▸ sets_xf_same_register .postInc .postInc n s

/-! ### The stack idioms (R251) -/

/-- A direct source without a mode leaves every register as it is. -/
theorem afterSource_keep (s : State) (r j : Reg) : afterSource s ⟨false, .keep, r⟩ j = s.reg j := by
  simp only [afterSource, accessValue, Mode.before_keep, Mode.after_keep]
  split
  · next e => rw [e]
  · rfl

/-- A push stores the register's value at the address below the stack register, which it leaves there. -/
theorem exec_push {sp r : Reg} {s : State} (ha : Accessible s (s.reg sp - Word.step s.cfg.width)) :
    ∃ regs m, storeWord s.cfg s.mem (s.reg sp - Word.step s.cfg.width) (s.reg r) = .ok m ∧
      exec (.xf ⟨true, .preDec, sp⟩ ⟨false, .keep, r⟩) s = .next { s with regs := regs, mem := m } ∧
      RegFile.read regs sp = s.reg sp - Word.step s.cfg.width := by
  have address : storeValue s ⟨true, .preDec, sp⟩ ⟨false, .keep, r⟩ = s.reg sp - Word.step s.cfg.width := by
    rw [storeValue, afterSource_keep, Mode.before_preDec]
  obtain ⟨m, stored, h⟩ := exec_xf_indirect (dst := ⟨true, .preDec, sp⟩) (src := ⟨false, .keep, r⟩) (v := s.reg r)
    rfl rfl (address ▸ ha)
  refine ⟨_, m, address ▸ stored, h, ?_⟩
  rw [reg_after_indirect, if_pos rfl, address, Mode.after_preDec]

/-- A pop loads the word at the stack register and steps it up. -/
theorem exec_pop {sp q : Reg} {t : State} {v : Word t.cfg.width} (ne : q ≠ sp) (ha : Accessible t (t.reg sp))
    (hv : HoldsWord t (t.reg sp) v) : ∃ u, exec (.xf ⟨false, .keep, q⟩ ⟨true, .postInc, sp⟩) t = .next u ∧
      u.x q = v.toNat ∧ u.x sp = (t.reg sp + Word.step t.cfg.width).toNat := by
  obtain ⟨u, h, regs, -, -⟩ := transferToRegister ⟨false, .keep, q⟩ ⟨true, .postInc, sp⟩ t v rfl ⟨ha, hv⟩
  refine ⟨u, h, (regs q).trans (by rw [if_pos rfl, Mode.after_keep]), (regs sp).trans ?_⟩
  rw [if_neg ne.symm, afterSource, if_pos rfl, accessValue, Mode.before_postInc, Mode.after_postInc]

/-- Settles O47: the pop loads at the very address of the push. -/
theorem pushThenPop : Obligations.PushThenPop := by
  intro sp q r s ne ha
  obtain ⟨regs, m, stored, push, top⟩ := exec_push (r := r) ha
  have popAccess : Accessible { s with regs := regs, mem := m } (RegFile.read regs sp) := top ▸ ha
  have popHolds : HoldsWord { s with regs := regs, mem := m } (RegFile.read regs sp) (s.reg r) :=
    top ▸ getAll_of_memWrite (WordSize.bytes_le _) stored
  obtain ⟨u, pop, value, restored⟩ := exec_pop (t := { s with regs := regs, mem := m }) ne popAccess popHolds
  refine ⟨_, u, push, pop, (congrArg BitVec.toNat top).trans (toNat_sub_step _), value, restored.trans ?_⟩
  refine congrArg BitVec.toNat (Eq.trans (congrArg (· + Word.step s.cfg.width) top) ?_)
  exact BitVec.sub_add_cancel _ _

end Sys2Proof.Machine
end

