-- ==== Sys2Proof/Proofs/EqualEffects.lean ====
section
/-! Instructions that change nothing (30_encoding.md R105) and instructions of equal effect (R172, R176,
R177, R184, R185, R205 (b), R252): both are equations between register writes. -/

namespace Sys2Proof.Machine

/-! ### Nothing changes -/

theorem setReg_reg_self (s : State) (d : Reg) : s.setReg d (s.reg d) = s := by
  rw [State.setReg, State.reg_eq_read, RegFile.write_read_self]

/-- A register write of the value that the register holds leaves the whole state as it is. -/
theorem exec_eq_self {i : Instr} {s : State} {d : Reg} {v : Word s.cfg.width} (h : exec i s = .next (s.setReg d v))
    (same : v = s.reg d) : exec i s = .next s := by
  rw [h, same, setReg_reg_self]

theorem shiftLeft_zero {w : WordSize} (d : Word w) : shiftLeft d 0#w.bits = d := by
  refine BitVec.eq_of_toNat_eq ?_
  have positive : ¬ w.bits ≤ 0 := by have := WordSize.sixteen_le_bits w; omega
  rw [toNat_shiftLeft, BitVec.toNat_zero, if_neg positive, Nat.pow_zero, Nat.mul_one, Nat.mod_eq_of_lt d.isLt]

theorem shiftRight_zero {w : WordSize} (d : Word w) : shiftRight d 0#w.bits = d := by
  refine BitVec.eq_of_toNat_eq ?_
  have positive : ¬ w.bits ≤ 0 := by have := WordSize.sixteen_le_bits w; omega
  rw [toNat_shiftRight, BitVec.toNat_zero, if_neg positive, Nat.pow_zero, Nat.div_one]

theorem shiftArith_zero {w : WordSize} (d : Word w) : shiftArith d 0#w.bits = d := by
  rw [shiftArith, BitVec.toNat_zero, Nat.zero_min, BitVec.sshiftRight_zero]

theorem displacement_zero (w : WordSize) : displacement w 0 = 0#w.bits := by
  rw [displacement, Int.mul_zero]
  exact BitVec.ofInt_ofNat w.bits 0

/-- Truth table 10 is the source bit (R131). -/
theorem bitLut_ten {w : WordSize} (d s : Word w) : bitLut 10#4 d s = s :=
  bitLut_eq_of_table (fun _ b => b) (by decide) (fun _ _ => rfl)

/-- Truth table 12 is the destination bit (R133). -/
theorem bitLut_twelve {w : WordSize} (d s : Word w) : bitLut 12#4 d s = d :=
  bitLut_eq_of_table (fun a _ => a) (by decide) (fun _ _ => rfl)

/-- Truth table 0 is 0 (R121). -/
theorem bitLut_zero {w : WordSize} (d s : Word w) : bitLut 0#4 d s = 0#w.bits :=
  bitLut_eq_of_table (fun _ _ => false) (by decide) (fun _ _ => BitVec.getLsbD_zero)

/-- A plain transfer between registers is one register write (R252). -/
theorem exec_xf_plain (d r : Reg) (s : State) :
    exec (.xf ⟨false, .keep, d⟩ ⟨false, .keep, r⟩) s = .next (s.setReg d (s.reg r)) := by
  have supplies : Supplies s ⟨false, .keep, r⟩ (s.reg r) := rfl
  rw [exec_xf_direct (dst := ⟨false, .keep, d⟩) rfl supplies]
  have regs : written ⟨false, .keep, d⟩ (s.reg r) (stepped ⟨false, .keep, r⟩ s.regs) =
      RegFile.write s.regs d (s.reg r) := by
    refine RegFile.ext_read fun j => ?_
    rw [reg_after_direct, afterSource_keep, RegFile.read_write, Mode.after_keep]
    rfl
  rw [regs]

/-- Settles O55. -/
theorem noOperationForms : Obligations.NoOperationForms := by
  intro d r s
  refine ⟨?bitD, ?bitS, ?add, ?sub, ?shl, ?shr, ?asr, ?xf, ?jc⟩
  case bitD => exact exec_eq_self (bitwise_eq 12#4 d r s) (bitLut_twelve _ _)
  case bitS => exact exec_eq_self (bitwise_eq 10#4 d d s) (bitLut_ten _ _)
  case add => exact exec_eq_self (writeResult_eq d s _) (BitVec.add_zero _)
  case sub => exact exec_eq_self (writeResult_eq d s _) (BitVec.sub_zero _)
  case shl => exact exec_eq_self (writeResult_eq d s _) (shiftLeft_zero _)
  case shr => exact exec_eq_self (writeResult_eq d s _) (shiftRight_zero _)
  case asr => exact exec_eq_self (writeResult_eq d s _) (shiftArith_zero _)
  case xf => exact exec_eq_self (exec_xf_plain d d s) rfl
  case jc =>
    refine exec_eq_self (exec_jc d 0 s) ?_
    rw [displacement_zero, BitVec.add_zero, ite_self]

/-! ### Equal effects -/

/-- Without the greater test the sign flag has no effect. -/
theorem cmpResult_of_not_g {w : WordSize} (inv e sg sg' : Bool) (d s : Word w) :
    cmpResult ⟨inv, sg, false, e⟩ d s = cmpResult ⟨inv, sg', false, e⟩ d s := rfl

theorem compare_of_not_g (inv e sg sg' : Bool) (d r : Reg) (s : State) :
    compare ⟨inv, sg, false, e⟩ d r s = compare ⟨inv, sg', false, e⟩ d r s := by
  rw [compare_eq, compare_eq, cmpResult_of_not_g inv e sg sg']

/-- A link into R0 is overwritten by the jump (R205 (b)), which then goes where the register pointed; with
`P = R0` too that is the address of the next instruction, which x[0] held. -/
theorem exec_jal_link_pc (r : Reg) (s : State) : exec (.jal Reg.pc r) s = .next (s.setReg Reg.pc (s.reg r)) := by
  have regs : RegFile.write (RegFile.write s.regs Reg.pc s.pc) Reg.pc
      (RegFile.read (RegFile.write s.regs Reg.pc s.pc) r) = RegFile.write s.regs Reg.pc (s.reg r) := by
    rw [State.pc, State.reg_eq_read, RegFile.write_read_self, State.reg_eq_read]
  exact congrArg (fun f => Host.Outcome.next { s with regs := f }) regs

theorem exec_bitS (d r : Reg) (s : State) : exec (.bitS d r) s = .next (s.setReg d (s.reg r)) := by
  rw [← bitLut_ten (s.reg d) (s.reg r)]
  exact bitwise_eq 10#4 d r s

/-- Settles O56. -/
theorem instructionsOfEqualEffect : Obligations.InstructionsOfEqualEffect := by
  intro d r s
  refine ⟨?xf, ?cmp, ?cmpS, ?cmpES, ?cmpSI, ?cmpESI, ?jal⟩
  case xf => rw [exec_xf_plain, exec_bitS]
  case cmp =>
    have zero : cmpResult ⟨false, false, false, false⟩ (s.reg d) (s.reg r) = bitLut 0#4 (s.reg d) (s.reg r) := by
      rw [bitLut_zero, cmpResult, finalTest, internalTest]
      rfl
    exact congrArg (fun v => Host.Outcome.next (s.setReg d v)) zero
  case cmpS => exact compare_of_not_g _ _ _ _ d r s
  case cmpES => exact compare_of_not_g _ _ _ _ d r s
  case cmpSI => exact compare_of_not_g _ _ _ _ d r s
  case cmpESI => exact compare_of_not_g _ _ _ _ d r s
  case jal => rw [exec_jal_link_pc, exec_bitS]

end Sys2Proof.Machine
end

