-- ==== Sys2Proof/Proofs/Views.lean ====
section
/-! What instructions never read. A view changes the byte order, memory, halt flag, output and stored SR 5
of a state; every instruction but SRW and XF commutes with every view, because it reads none of them. -/

namespace Sys2Proof.Machine

/-! ### Views of a state -/

/-- A change of the parts of a state that only a memory access or SRW can reach. -/
structure View where
  order : ByteOrder → ByteOrder
  mem : Memory → Memory
  halted : Bool → Bool
  out : List Byte → List Byte
  cycles : (w : WordSize) → Word w → Word w

@[reducible] def View.apply (V : View) (s : State) : State :=
  { s with
    cfg := { s.cfg with byteOrder := V.order s.cfg.byteOrder }
    mem := V.mem s.mem
    halted := V.halted s.halted
    out := V.out s.out
    cycles := V.cycles s.cfg.width s.cycles }

/-- What an outcome looks like through a change of its next state. -/
def onNext (g : State → State) : Host.Outcome State Fault Refusal → Host.Outcome State Fault Refusal
  | .next t => .next (g t)
  | .fault f => .fault f
  | .refused r => .refused r

theorem onNext_next (g : State → State) (t : State) : onNext g (.next t) = .next (g t) := rfl

theorem onNext_fault (g : State → State) (f : Fault) : onNext g (.fault f) = .fault f := rfl

/-- The second outcome is the same stop as the first, or a next state in the relation to the first's. -/
def AnswersAlike (R : State → State → Prop) (a b : Host.Outcome State Fault Refusal) : Prop :=
  (∀ f, a = .fault f → b = .fault f) ∧ ∀ t, a = .next t → ∃ u, b = .next u ∧ R t u

theorem answersAlike_fault {R : State → State → Prop} {a b : Host.Outcome State Fault Refusal} {f : Fault}
    (ha : a = .fault f) (hb : b = .fault f) : AnswersAlike R a b := by
  subst ha hb
  exact ⟨fun _ e => e, fun _ e => (nomatch e)⟩

theorem answersAlike_next {R : State → State → Prop} {a b : Host.Outcome State Fault Refusal} {t u : State}
    (ha : a = .next t) (hb : b = .next u) (h : R t u) : AnswersAlike R a b := by
  subst ha hb
  exact ⟨fun _ e => (nomatch e), fun _ e => Host.Outcome.next.inj e ▸ ⟨u, rfl, h⟩⟩

theorem answersAlike_onNext {R : State → State → Prop} {a b : Host.Outcome State Fault Refusal} {g : State → State}
    (hb : b = onNext g a) (h : ∀ t, a = .next t → R t (g t)) : AnswersAlike R a b := by
  subst hb
  exact ⟨fun _ e => by rw [e, onNext_fault], fun t e => ⟨g t, by rw [e, onNext_next], h t e⟩⟩

/-- The instruction answers through the view what it answers. -/
def Commutes (V : View) (i : Instr) (s : State) : Prop := exec i (V.apply s) = onNext V.apply (exec i s)

/-! ### Every instruction but SRW and XF -/

theorem withMultiplier_view (V : View) (iw : BitVec 16) (s : State) {go go' : Host.Outcome State Fault Refusal}
    (h : go' = onNext V.apply go) :
    withMultiplier iw (V.apply s) go' = onNext V.apply (withMultiplier iw s go) := by
  cases hm : s.cfg.hasMul with
  | true => rw [withMultiplier_of_hasMul hm, withMultiplier_of_hasMul (s := V.apply s) hm, h]
  | false => rw [withMultiplier_of_not_hasMul hm, withMultiplier_of_not_hasMul (s := V.apply s) hm, onNext_fault]

theorem divideOp_view (V : View) (iw : BitVec 16) (d : Reg) (s : State) (divisor result : Word s.cfg.width) :
    divideOp iw d (V.apply s) divisor result = onNext V.apply (divideOp iw d s divisor result) := by
  refine withMultiplier_view V iw s ?_
  by_cases zero : divisor = 0#s.cfg.width.bits
  · rw [if_pos zero, if_pos zero]; rfl
  · rw [if_neg zero, if_neg zero]; rfl

theorem readSysReg_view (V : View) (s : State) (n : Nat) : readSysReg (V.apply s) n = readSysReg s n := by
  by_cases h : n ∈ [0, 1, 2, 4, 5, 6, 7]
  · simp only [List.mem_cons, List.not_mem_nil, or_false] at h
    rcases h with rfl | rfl | rfl | rfl | rfl | rfl | rfl <;> rfl
  · rw [readSysReg_eq_none h, readSysReg_eq_none h]

theorem exec_srr_view (V : View) (r : Reg) (n : Nat) (s : State) : Commutes V (.srr r n) s := by
  have read := readSysReg_view V s n
  unfold Commutes
  cases h : readSysReg s n with
  | none => simp only [exec, execSrr, h, read.trans h]; rfl
  | some v => rw [exec_srr_of_readable h, exec_srr_of_readable (read.trans h)]; rfl

/-- Register instructions compute from registers, the word size, the multiplier and the System Registers
that a view leaves. -/
theorem exec_view (V : View) {i : Instr} (s : State) (notSrw : ∀ n r, i ≠ .srw n r)
    (notXf : ∀ dst src, i ≠ .xf dst src) : Commutes V i s := by
  cases i
  case srw n r => exact absurd rfl (notSrw n r)
  case xf dst src => exact absurd rfl (notXf dst src)
  case srr r n => exact exec_srr_view V r n s
  case mul d r => exact withMultiplier_view V _ s rfl
  case mulImm d n => exact withMultiplier_view V _ s rfl
  case div d r => exact divideOp_view V _ d s _ _
  case mod d r => exact divideOp_view V _ d s _ _
  case divImm d n => exact divideOp_view V _ d s _ _
  case modImm d n => exact divideOp_view V _ d s _ _
  all_goals rfl

/-! ### The halt flag, the output and the stored SR 5 -/

/-- The view in which these three have given values. -/
def View.quiet (h : Bool) (o : List Byte) {v : WordSize} (c : Word v) : View where
  order := id
  mem := id
  halted := fun _ => h
  out := fun _ => o
  cycles := fun w _ => c.setWidth w.bits

theorem quiet_apply (s : State) (h : Bool) (o : List Byte) (c : Word s.cfg.width) :
    (View.quiet h o c).apply s = { s with halted := h, out := o, cycles := c } :=
  congrArg (fun k => ({ s with halted := h, out := o, cycles := k } : State)) (BitVec.setWidth_eq c)

/-- The transfer reads and writes registers and memory only. -/
theorem exec_xf_quiet (h : Bool) (o : List Byte) {v : WordSize} (c : Word v) (dst src : Operand) (s : State) :
    Commutes (View.quiet h o c) (.xf dst src) s := by
  unfold Commutes
  cases hs : sourcePhase s.cfg s.mem src s.regs with
  | error f =>
    rw [exec_xf_of_source_error hs, exec_xf_of_source_error (s := (View.quiet h o c).apply s) hs, onNext_fault]
  | ok p =>
    obtain ⟨w, r⟩ := p
    cases hd : destPhase s.cfg s.mem dst w r with
    | error f =>
      rw [exec_xf_of_dest_error hs hd, exec_xf_of_dest_error (s := (View.quiet h o c).apply s) hs hd, onNext_fault]
    | ok q =>
      rw [exec_xf_of_ok hs hd, exec_xf_of_ok (s := (View.quiet h o c).apply s) hs hd, onNext_next]
      rfl

/-- The two states agree on everything that instructions read. -/
def SameReadable (t u : State) : Prop :=
  u.cfg = t.cfg ∧ (∀ j, u.x j = t.x j) ∧ u.ivt.toNat = t.ivt.toNat ∧ u.retired.toNat = t.retired.toNat ∧
    u.draws = t.draws ∧ u.mem = t.mem

theorem sameReadable_quiet (h : Bool) (o : List Byte) {v : WordSize} (c : Word v) (t : State) :
    SameReadable t ((View.quiet h o c).apply t) :=
  ⟨rfl, fun _ => rfl, rfl, rfl, rfl, rfl⟩

/-- Through a quiet view a write to a System Register stops alike or leaves alike what can be read: the
value that it stores comes from a register. -/
theorem exec_srw_quiet (h : Bool) (o : List Byte) {v : WordSize} (c : Word v) (n : Nat) (r : Reg) (s : State) :
    AnswersAlike SameReadable (exec (.srw n r) s) (exec (.srw n r) ((View.quiet h o c).apply s)) := by
  by_cases allowed : n ∈ [2, 3, 4, 5, 10]
  · simp only [List.mem_cons, List.not_mem_nil, or_false] at allowed
    rcases allowed with rfl | rfl | rfl | rfl | rfl
    case inr.inl =>
      rcases Nat.lt_or_ge (s.x r) 2 with low | high
      · exact answersAlike_next (exec_srw_three low) (exec_srw_three (s := (View.quiet h o c).apply s) low)
          ⟨rfl, fun _ => rfl, rfl, rfl, rfl, rfl⟩
      · exact answersAlike_fault (sr3ReservedBitsStop r s high)
          (sr3ReservedBitsStop r ((View.quiet h o c).apply s) high)
    all_goals exact answersAlike_next rfl rfl ⟨rfl, fun _ => rfl, rfl, rfl, rfl, rfl⟩
  · exact answersAlike_fault (writeSysReg_eq_stop allowed) (writeSysReg_eq_stop allowed)

theorem exec_quiet (h : Bool) (o : List Byte) {v : WordSize} (c : Word v) (i : Instr) (s : State) :
    AnswersAlike SameReadable (exec i s) (exec i ((View.quiet h o c).apply s)) := by
  by_cases srw : ∃ n r, i = .srw n r
  · obtain ⟨n, r, rfl⟩ := srw
    exact exec_srw_quiet h o c n r s
  · refine answersAlike_onNext (g := (View.quiet h o c).apply) ?_ fun t _ => sameReadable_quiet h o c t
    by_cases xf : ∃ dst src, i = .xf dst src
    · obtain ⟨dst, src, rfl⟩ := xf
      exact exec_xf_quiet h o c dst src s
    · exact exec_view _ s (fun n r e => srw ⟨n, r, e⟩) (fun dst src e => xf ⟨dst, src, e⟩)

/-- Settles O54: the other state of the statement is the first through a quiet view. -/
theorem haltOutputAndCyclesAreNeverRead : Obligations.HaltOutputAndCyclesAreNeverRead := by
  intro i s h o c
  rw [← quiet_apply s h o c]
  exact exec_quiet h o c i s

end Sys2Proof.Machine
end

