-- ==== Sys2Proof/Proofs/ByteOrder.lean ====
section
/-! On ASS16/16 no program can tell the byte order (20_memory.md R75). Every access is an aligned 2-byte
cell, so exchanging the bytes of every cell undoes the other byte order: a simulation, memory access by
memory access, then phase by phase of XF, then instruction by instruction. -/

namespace Sys2Proof.Machine

/-! ### Cells -/

/-- The second memory is the first with the two bytes of every cell exchanged. -/
def CellsExchanged (m m' : Memory) : Prop := ∀ a, Memory.get m' a = Memory.get m (cellPartner a)

/-- The configuration with the other byte order. -/
@[reducible] def otherOrder (c : Config) : Config := { c with byteOrder := ByteOrder.other c.byteOrder }

theorem cellPartner_cellPartner (a : Nat) : cellPartner (cellPartner a) = a := by
  unfold cellPartner
  split_ifs <;> omega

/-- The addresses of an aligned 2-byte access are one cell: the partner of each is the other. -/
theorem cellPartner_address {w : WordSize} {a : Word w} (even : a.toNat % 2 = 0) {k : Nat} (hk : k < 2) :
    cellPartner ((a.toNat + k) % 2 ^ w.bits) = (a.toNat + (1 - k)) % 2 ^ w.bits := by
  have below := a.isLt
  have space : 2 ^ w.bits % 2 = 0 := by cases w <;> decide
  have first : a.toNat + k < 2 ^ w.bits := by omega
  have second : a.toNat + (1 - k) < 2 ^ w.bits := by omega
  rw [Nat.mod_eq_of_lt first, Nat.mod_eq_of_lt second, cellPartner]
  split_ifs <;> omega

theorem cellPartner_mem_addresses {w : WordSize} {a : Word w} (even : a.toNat % 2 = 0) {x : Nat}
    (h : cellPartner x ∈ addresses a 2) : x ∈ addresses a 2 := by
  obtain ⟨k, hk, e⟩ := mem_addresses.1 h
  refine mem_addresses.2 ⟨1 - k, by omega, ?_⟩
  rw [← cellPartner_address even hk, e, cellPartner_cellPartner]

/-- In the other byte order a 2-byte value has its bytes in the other places. -/
theorem byteAt_other (o : ByteOrder) (v : BitVec (8 * 2)) {k : Nat} (hk : k < 2) :
    byteAt (ByteOrder.other o) 2 v k = byteAt o 2 v (1 - k) := by
  cases o with
  | little => rfl
  | big => exact congrArg (byteOf v) (by omega)

/-! ### Accesses of two bytes -/

/-- A read gives `v` in one view exactly if it gives `v` in the other: each byte of the cell has moved to
where the other order looks for it. -/
theorem memRead_ok_exchanged {c : Config} {m m' : Memory} (h : CellsExchanged m m') {k : AccessKind}
    {a : Word c.width} {v : BitVec (8 * 2)} :
    memRead (otherOrder c) m' k a 2 = .ok v ↔ memRead c m k a 2 = .ok v := by
  rw [memRead_eq_ok_iff, memRead_eq_ok_iff, getAll_addresses_eq_some_iff, getAll_addresses_eq_some_iff]
  refine and_congr_right fun fits => ?_
  have even : a.toNat % 2 = 0 := (accessFault_eq_none_iff.1 fits).1
  have moved : ∀ j < 2,
      Memory.get m' ((a.toNat + j) % 2 ^ c.width.bits) = some (byteAt (otherOrder c).byteOrder 2 v j) ↔
      Memory.get m ((a.toNat + (1 - j)) % 2 ^ c.width.bits) = some (byteAt c.byteOrder 2 v (1 - j)) := fun j hj => by
    rw [h, cellPartner_address even hj, byteAt_other c.byteOrder v hj]
  refine ⟨fun held j hj => ?_, fun held j hj => (moved j hj).2 (held (1 - j) (by omega))⟩
  have other := (moved (1 - j) (by omega)).1 (held (1 - j) (by omega))
  rwa [Nat.sub_sub_self (by omega)] at other

/-- A 2-byte read answers alike, value or stop. -/
theorem memRead_exchanged {c : Config} {m m' : Memory} (h : CellsExchanged m m') (k : AccessKind) (a : Word c.width)
    {n : Nat} (hn : n = 2) : memRead (otherOrder c) m' k a n = memRead c m k a n := by
  subst hn
  cases fits : accessFault c k a 2 with
  | some f =>
    rw [memRead_of_accessFault fits]
    exact memRead_of_accessFault (c := otherOrder c) fits
  | none =>
    rcases memRead_of_accessFault_none m fits with ⟨v, hv⟩ | unwritten
    · exact ((memRead_ok_exchanged h).2 hv).trans hv.symm
    · rcases memRead_of_accessFault_none (c := otherOrder c) m' fits with ⟨v, hv⟩ | unwritten'
      · exact hv.trans ((memRead_ok_exchanged h).1 hv).symm
      · exact unwritten'.trans unwritten.symm

/-- A 2-byte write keeps the cells exchanged. -/
theorem memWrite_exchanged {c : Config} {m m' p : Memory} (h : CellsExchanged m m') {a : Word c.width} {n : Nat}
    (hn : n = 2) {v : BitVec (8 * n)} (hw : memWrite c m a n v = .ok p) :
    ∃ p', memWrite (otherOrder c) m' a n v = .ok p' ∧ CellsExchanged p p' := by
  subst hn
  have fits := (memWrite_ok hw).1
  have even : a.toNat % 2 = 0 := (accessFault_eq_none_iff.1 fits).1
  obtain ⟨p', hw'⟩ : ∃ p', memWrite (otherOrder c) m' a 2 v = .ok p' := ⟨_, memWrite_eq m' v fits⟩
  refine ⟨p', hw', fun x => ?_⟩
  by_cases inside : x ∈ addresses a 2
  · obtain ⟨k, hk, rfl⟩ := mem_addresses.1 inside
    have held := getAll_addresses_eq_some_iff.1 (getAll_of_memWrite (by decide) hw)
    have held' := getAll_addresses_eq_some_iff.1 (getAll_of_memWrite (by decide) hw')
    rw [held' k hk, cellPartner_address even hk, held (1 - k) (by omega), byteAt_other c.byteOrder v hk]
  · have outside : cellPartner x ∉ addresses a 2 := mt (cellPartner_mem_addresses even) inside
    rw [get_of_memWrite_of_notMem hw' inside, get_of_memWrite_of_notMem hw outside, h]

/-! ### The phases of a transfer -/

theorem destPhase_error_exchanged {c : Config} {m : Memory} (m' : Memory) {o : Operand} {v : Word c.width}
    {r : RegFile c.width} {f : Fault} (hd : destPhase c m o v r = .error f) : destPhase (otherOrder c) m' o v r = .error f := by
  cases hi : o.indirect with
  | false => rw [destPhase_direct m v r hi] at hd; cases hd
  | true =>
    cases hs : accessFault c .store (Mode.before o.mode (RegFile.read r o.reg)) c.width.bytes with
    | some g =>
      rw [destPhase_store_error hi (memWrite_of_accessFault hs)] at hd
      obtain rfl := Except.error.inj hd
      exact destPhase_store_error (c := otherOrder c) hi (memWrite_of_accessFault (c := otherOrder c) hs)
    | none => rw [destPhase_store_ok hi (memWrite_eq m v hs)] at hd; cases hd

section
variable {c : Config} (hc : c.width = .w16) {m m' : Memory} (h : CellsExchanged m m')
include hc h

theorem loadWord_exchanged (a : Word c.width) : loadWord (otherOrder c) m' a = loadWord c m a :=
  memRead_exchanged h .load a (congrArg WordSize.bytes hc)

theorem storeWord_exchanged {a v : Word c.width} {p : Memory} (hs : storeWord c m a v = .ok p) :
    ∃ p', storeWord (otherOrder c) m' a v = .ok p' ∧ CellsExchanged p p' :=
  memWrite_exchanged h (congrArg WordSize.bytes hc) hs

theorem sourcePhase_exchanged (o : Operand) (r : RegFile c.width) :
    sourcePhase (otherOrder c) m' o r = sourcePhase c m o r := by
  cases hi : o.indirect with
  | false => rw [sourcePhase_direct m r hi]; exact sourcePhase_direct (c := otherOrder c) m' r hi
  | true =>
    have load := loadWord_exchanged hc h (Mode.before o.mode (RegFile.read r o.reg))
    cases hl : loadWord c m (Mode.before o.mode (RegFile.read r o.reg)) with
    | error f =>
      rw [sourcePhase_load_error hi hl]
      exact sourcePhase_load_error (c := otherOrder c) hi (load.trans hl)
    | ok v =>
      rw [sourcePhase_load_ok hi hl]
      exact sourcePhase_load_ok (c := otherOrder c) hi (load.trans hl)

theorem destPhase_ok_exchanged {o : Operand} {v : Word c.width} {r r' : RegFile c.width} {p : Memory}
    (hd : destPhase c m o v r = .ok (r', p)) :
    ∃ p', destPhase (otherOrder c) m' o v r = .ok (r', p') ∧ CellsExchanged p p' := by
  cases hi : o.indirect with
  | false =>
    rw [destPhase_direct m v r hi] at hd
    obtain ⟨rfl, rfl⟩ := Prod.mk.inj (Except.ok.inj hd)
    exact ⟨m', destPhase_direct (c := otherOrder c) m' v r hi, h⟩
  | true =>
    cases hs : storeWord c m (Mode.before o.mode (RegFile.read r o.reg)) v with
    | error f => rw [destPhase_store_error hi hs] at hd; cases hd
    | ok q =>
      rw [destPhase_store_ok hi hs] at hd
      obtain ⟨rfl, rfl⟩ := Prod.mk.inj (Except.ok.inj hd)
      obtain ⟨p', hs', exchanged⟩ := storeWord_exchanged hc h hs
      exact ⟨p', destPhase_store_ok (c := otherOrder c) hi hs', exchanged⟩

end

/-! ### Instructions -/

/-- The view with the other byte order and a given memory. -/
def View.swap (m : Memory) : View where
  order := ByteOrder.other
  mem := fun _ => m
  halted := id
  out := id
  cycles := fun _ => id

theorem byteSwapped_swap {s : State} {m : Memory} (h : CellsExchanged s.mem m) :
    ByteSwapped s ((View.swap m).apply s) := ⟨m, rfl, h⟩

theorem ByteSwapped.exists_swap {s t : State} (h : ByteSwapped s t) :
    ∃ m, t = (View.swap m).apply s ∧ CellsExchanged s.mem m := h

/-- A write to a System Register touches neither byte order nor memory. -/
theorem exec_srw_swap (m : Memory) (n : Nat) (r : Reg) (s : State) : Commutes (View.swap m) (.srw n r) s := by
  unfold Commutes
  by_cases allowed : n ∈ [2, 3, 4, 5, 10]
  · simp only [List.mem_cons, List.not_mem_nil, or_false] at allowed
    rcases allowed with rfl | rfl | rfl | rfl | rfl
    case inr.inl =>
      rcases Nat.lt_or_ge (s.x r) 2 with low | high
      · rw [exec_srw_three low, exec_srw_three (s := (View.swap m).apply s) low, onNext_next]
        rfl
      · have stops : exec (.srw 3 r) s = .fault _ := sr3ReservedBitsStop r s high
        have stops' : exec (.srw 3 r) ((View.swap m).apply s) = .fault _ := sr3ReservedBitsStop r _ high
        rw [stops, stops', onNext_fault]
        rfl
    all_goals rfl
  · have stops : exec (.srw n r) s = .fault _ := writeSysReg_eq_stop allowed
    have stops' : exec (.srw n r) ((View.swap m).apply s) = .fault _ := writeSysReg_eq_stop allowed
    rw [stops, stops', onNext_fault]

theorem exec_xf_swap {s : State} (hw : s.cfg.width = .w16) {m : Memory} (h : CellsExchanged s.mem m)
    (dst src : Operand) :
    AnswersAlike ByteSwapped (exec (.xf dst src) s) (exec (.xf dst src) ((View.swap m).apply s)) := by
  have source := sourcePhase_exchanged hw h src s.regs
  cases hs : sourcePhase s.cfg s.mem src s.regs with
  | error f =>
    exact answersAlike_fault (exec_xf_of_source_error hs)
      (exec_xf_of_source_error (s := (View.swap m).apply s) (source.trans hs))
  | ok p =>
    obtain ⟨v, r⟩ := p
    cases hd : destPhase s.cfg s.mem dst v r with
    | error f =>
      exact answersAlike_fault (exec_xf_of_dest_error hs hd)
        (exec_xf_of_dest_error (s := (View.swap m).apply s) (source.trans hs) (destPhase_error_exchanged m hd))
    | ok q =>
      obtain ⟨r', p⟩ := q
      obtain ⟨p', hd', exchanged⟩ := destPhase_ok_exchanged hw h hd
      exact answersAlike_next (exec_xf_of_ok hs hd)
        (exec_xf_of_ok (s := (View.swap m).apply s) (source.trans hs) hd') ⟨p', rfl, exchanged⟩

theorem exec_swap {s : State} (hw : s.cfg.width = .w16) {m : Memory} (h : CellsExchanged s.mem m) (i : Instr) :
    AnswersAlike ByteSwapped (exec i s) (exec i ((View.swap m).apply s)) := by
  by_cases xf : ∃ dst src, i = .xf dst src
  · obtain ⟨dst, src, rfl⟩ := xf
    exact exec_xf_swap hw h dst src
  · have commutes : Commutes (View.swap m) i s := by
      by_cases srw : ∃ n r, i = .srw n r
      · obtain ⟨n, r, rfl⟩ := srw
        exact exec_srw_swap m n r s
      · exact exec_view _ s (fun n r e => srw ⟨n, r, e⟩) (fun dst src e => xf ⟨dst, src, e⟩)
    refine answersAlike_onNext commutes fun t ht => byteSwapped_swap ?_
    rcases exec_mem ht with same | ⟨isXf, -⟩
    · rwa [same]
    · exact absurd isXf xf

/-! ### Steps -/

theorem fetchInsn_swap {s : State} {m : Memory} (h : CellsExchanged s.mem m) :
    fetchInsn ((View.swap m).apply s) = fetchInsn s :=
  memRead_exchanged h .fetch s.pc rfl

theorem ByteSwapped.retire {s t : State} (h : ByteSwapped s t) : ByteSwapped s.retire t.retire := by
  obtain ⟨m, rfl, exchanged⟩ := h
  exact ⟨m, rfl, exchanged⟩

theorem AnswersAlike.finishStep {a b : Host.Outcome State Fault Refusal} (h : AnswersAlike ByteSwapped a b) :
    AnswersAlike ByteSwapped (finishStep a) (finishStep b) := by
  obtain ⟨faults, nexts⟩ := h
  cases a with
  | next t =>
    obtain ⟨u, rfl, swapped⟩ := nexts t rfl
    exact answersAlike_next rfl rfl swapped.retire
  | fault f =>
    obtain rfl := faults f rfl
    exact answersAlike_fault rfl rfl
  | refused r => exact ⟨fun _ e => (nomatch e), fun _ e => (nomatch e)⟩

/-- Settles O60: the fetch answers alike, and the instruction keeps the states exchanged, from the advanced
states to the retired ones. -/
theorem byteOrderIsInvisibleOn16Bits : Obligations.ByteOrderIsInvisibleOn16Bits := by
  intro s t hw swapped
  change AnswersAlike ByteSwapped (step s) (step t)
  obtain ⟨m, rfl, h⟩ := swapped.exists_swap
  cases running : s.halted with
  | true => exact answersAlike_next (step_of_halted running) (step_of_halted running) swapped
  | false =>
    have fetch := fetchInsn_swap h
    cases hf : fetchInsn s with
    | error f =>
      exact answersAlike_fault (step_of_fetch_error running hf) (step_of_fetch_error running (fetch.trans hf))
    | ok iw =>
      rw [step_of_fetch_ok running hf, step_of_fetch_ok (s := (View.swap m).apply s) running (fetch.trans hf)]
      exact (exec_swap (s := s.advancePc) hw h (decodeWord iw)).finishStep

end Sys2Proof.Machine
end
